-- ==== Sys2Proof/Word.lean ====
section
/-! DEFINITION. The machine's word types (spec/00_scope.md R6, R8). Every register value is an unsigned number; arithmetic is done
on `Nat` (R7) and only the result is put back into a word. -/

namespace Sys2Proof

/-- A byte of buffer memory (R60). -/
abbrev Byte := BitVec 8

/-- A `W`-bit value, `W = 64`: the operand and key registers and the register port's data (R6, R20, R40). -/
abbrev Word := BitVec 64

/-- A 32-bit value: the control and parameter registers and the command word (R20, R80). -/
abbrev Word32 := BitVec 32

/-- A register number of the register port, in `[0, 63]` (R40). -/
abbrev RegNum := Fin 64

end Sys2Proof
end

