-- ==== Sys2Proof/Config.lean ====
section
/-! DEFINITION. What the implementation fixes (spec/00_scope.md R6: this hardware's values, log entry 5) and the FREE VALUES of what
the spec leaves unspecified: opaque constants with no body, so that nothing can be proved about what they are. -/

namespace Sys2Proof.Config

/-- `W`, the width of the operand and key registers and of the port's data (R6). -/
def w : Nat := 64

/-- `PW = W / 2`, the largest bit length of a generated prime and the bound of the `PTEST` operand (R6). -/
def pw : Nat := w / 2

/-- `MEM_SIZE`, the number of bytes of buffer memory (R6). -/
def memSize : Nat := 2 ^ 20

/-- `RETRY_MAX`, the bound on the candidates of one prime search (R6). -/
def retryMax : Nat := 1024

/-- `E_TRIES_MAX`, the bound on the candidates examined for the public exponent (R6). -/
def eTriesMax : Nat := 64

/-- `E_PREFERRED`, the first candidate for the public exponent (R6). -/
def ePreferred : Nat := 65537

/-- `E_FALLBACK`, the first candidate when `E_PREFERRED ≥ φ(n)` (R6). -/
def eFallback : Nat := 3

/-- `PRNG_RESET` (R6). -/
def prngReset : Word32 := 1#32

/-- `K_MIN`, the least legal group size (R6). -/
def kMin : Nat := 1

/-- `K_MAX`, the greatest legal group size (R6). -/
def kMax : Nat := 4

theorem w_eq : w = 64 := rfl
theorem pw_eq : pw = 32 := rfl
theorem memSize_eq : memSize = 1048576 := rfl
theorem retryMax_eq : retryMax = 1024 := rfl
theorem eTriesMax_eq : eTriesMax = 64 := rfl
theorem ePreferred_eq : ePreferred = 65537 := rfl
theorem eFallback_eq : eFallback = 3 := rfl
theorem prngReset_eq : prngReset = 1#32 := rfl
theorem kMin_eq : kMin = 1 := rfl
theorem kMax_eq : kMax = 4 := rfl

/-- FREE VALUE: what the byte at an address holds after power-on, as long as nothing has written it: "an arbitrary function from
addresses to bytes, fixed at reset" (R62; log entry 4). -/
opaque powerOnByte : Nat → Byte

/-- FREE VALUE: what the `i`-th unspecified `RegRead` made while `BUSY = 1` returns (R214; log entry 3). -/
opaque busyWord : Nat → Word

/-- FREE VALUE: what the `i`-th unspecified `HostMemRead` made while `BUSY = 1` returns (R214; log entry 3). -/
opaque busyByte : Nat → Byte

end Sys2Proof.Config
end

