-- ==== Sys2Proof/Syntax.lean ====
section
/-! DEFINITION. The fourteen commands, one constructor per row of spec/opcode_table.json (spec/30_encoding.md R85). The one immediate,
`imm8`, is an unsigned number (R84); that it is below 256 is `Instr.wf` of WellFormed.lean (log entry 12). -/

namespace Sys2Proof

/-- A command (R85). -/
inductive Instr where
  /-- `NOP`, R170. -/
  | nop
  /-- `CLRERR`, R171. -/
  | clrerr
  /-- `SRST`, R172. -/
  | srst
  /-- `MODEXP`, R121. -/
  | modexp
  /-- `ENCRYPT`, R131. -/
  | encrypt
  /-- `DECRYPT`, R132. -/
  | decrypt
  /-- `KEYGEN B`, R134: `b` is the bit length of each prime. -/
  | keygen (b : Nat)
  /-- `LDINT`, R140. -/
  | ldint
  /-- `STINT`, R141. -/
  | stint
  /-- `PRIMEGEN B`, R154: `b` is the bit length of the prime. -/
  | primegen (b : Nat)
  /-- `PTEST`, R155. -/
  | ptest
  /-- `PACK k`, R103: `k` is the group size. -/
  | pack (k : Nat)
  /-- `UNPACK k`, R105: `k` is the group size. -/
  | unpack (k : Nat)
  /-- `FITS k`, R110: `k` is the group size. -/
  | fits (k : Nat)
  deriving DecidableEq, Repr

end Sys2Proof
end

