-- ==== Sys2Proof/WellFormed.lean ====
section
/-! DEFINITION. Which instruction terms a command word can carry: the immediate of formats K and B is one byte (spec/30_encoding.md
R80, R82 to R84). A `k` outside `[1, 4]` or a `B` outside `[2, PW]` is well-formed: it decodes, and is rejected at execution. -/

namespace Sys2Proof

/-- The immediate fits the eight bits of the `imm8` field (R80, R84). -/
def immFits (imm : Nat) : Bool := imm < 256

/-- The instruction can be written as a command word. -/
def Instr.wf : Instr → Bool
  | .nop => true
  | .clrerr => true
  | .srst => true
  | .modexp => true
  | .encrypt => true
  | .decrypt => true
  | .keygen b => immFits b
  | .ldint => true
  | .stint => true
  | .primegen b => immFits b
  | .ptest => true
  | .pack k => immFits k
  | .unpack k => immFits k
  | .fits k => immFits k

end Sys2Proof
end

