-- ==== Sys2Proof/Decode.lean ====
section
/-! DEFINITION. The decoder of a command word, total and rejecting by name, and after it the encoder (spec/30_encoding.md R80 to R88). -/

namespace Sys2Proof

/-- Why a word is illegal (R86): every such word raises `IllegalCommand` with the word in `ERRINFO`, whichever reason it is. -/
inductive IllegalWord where
  /-- R86 (a): `word[31:16] ≠ 0`. -/
  | zeroField
  /-- R86 (b): `word[7:0]` is not one of the fourteen opcodes. -/
  | opcode
  /-- R86 (c): the opcode is of format Z and `word[15:8] ≠ 0`. -/
  | immediate
  deriving DecidableEq, Repr

/-- What a command word stands for: decode is total (R87). -/
inductive Decoded where
  | instr (i : Instr)
  | illegal (why : IllegalWord)
  deriving DecidableEq, Repr

/-- `word[7:0]` (R80). -/
def opcodeField (w : Word32) : Byte := w.extractLsb' 0 8

/-- `word[15:8]` (R80, R84). -/
def immField (w : Word32) : Byte := w.extractLsb' 8 8

/-- `word[31:16]` (R80). -/
def zeroField (w : Word32) : BitVec 16 := w.extractLsb' 16 16

/-- Format Z: the immediate field must be 0 (R81). -/
def decodeZ (imm : Nat) (i : Instr) : Decoded :=
  if imm = 0 then .instr i else .illegal .immediate

/-- The command that an opcode and an immediate select (R85). -/
def decodeOpcode (op imm : Nat) : Decoded :=
  match op with
  | 0x00 => decodeZ imm .nop
  | 0x01 => decodeZ imm .clrerr
  | 0x02 => decodeZ imm .srst
  | 0x10 => decodeZ imm .modexp
  | 0x20 => decodeZ imm .encrypt
  | 0x21 => decodeZ imm .decrypt
  | 0x22 => .instr (.keygen imm)
  | 0x23 => decodeZ imm .ldint
  | 0x24 => decodeZ imm .stint
  | 0x30 => .instr (.primegen imm)
  | 0x31 => decodeZ imm .ptest
  | 0x40 => .instr (.pack imm)
  | 0x41 => .instr (.unpack imm)
  | 0x42 => .instr (.fits imm)
  | _ => .illegal .opcode

/-- The decoder: every 32-bit word has exactly one outcome (R85 to R87). -/
def decode (w : Word32) : Decoded :=
  if zeroField w = 0 then decodeOpcode (opcodeField w).toNat (immField w).toNat
  else .illegal .zeroField

/-- The instruction the decoder reads from an opcode-table row's word; every row is one 32-bit word (R80). A number with more bits
than `nbits` is no such word, and no instruction is longer than 32 bits (R88). -/
def decodeTableWord (nbits w : Nat) : Option Instr :=
  if nbits ≤ 32 then
    match decode (BitVec.ofNat 32 (w % 2 ^ nbits)) with
    | .instr i => some i
    | .illegal _ => none
  else none

/-- The opcode of an instruction (R85). -/
def Instr.opcode : Instr → Nat
  | .nop => 0x00
  | .clrerr => 0x01
  | .srst => 0x02
  | .modexp => 0x10
  | .encrypt => 0x20
  | .decrypt => 0x21
  | .keygen _ => 0x22
  | .ldint => 0x23
  | .stint => 0x24
  | .primegen _ => 0x30
  | .ptest => 0x31
  | .pack _ => 0x40
  | .unpack _ => 0x41
  | .fits _ => 0x42

/-- The immediate of an instruction, 0 in format Z (R81 to R83). -/
def Instr.imm8 : Instr → Nat
  | .nop => 0
  | .clrerr => 0
  | .srst => 0
  | .modexp => 0
  | .encrypt => 0
  | .decrypt => 0
  | .keygen b => b
  | .ldint => 0
  | .stint => 0
  | .primegen b => b
  | .ptest => 0
  | .pack k => k
  | .unpack k => k
  | .fits k => k

/-- The command word of an instruction: `opcode + 256 × imm8` (R81 to R83). -/
def encode (i : Instr) : Word32 := BitVec.ofNat 32 (i.opcode + 256 * i.imm8)

end Sys2Proof
end

