-- ==== Sys2Proof/Machine/State.lean ====
section
/-! DEFINITION. The machine's state as plain data: every register of spec/10_state.md R20, the buffer memory, and three fields of the
model's own (the host's transactions, the values they returned, the counter of free values); what can stop a step; reset. -/

namespace Sys2Proof.Machine

/-- The sequencer state, which stands in the place of a program counter (R30). The four values are the four legal combinations of
the bits `BUSY`, `DONE`, `ERR` of `STATUS` (log entry 6). -/
inductive Sequencer where
  /-- No command has completed since the last reset. -/
  | idle
  /-- A command is executing. -/
  | busy
  /-- The last command completed successfully. -/
  | done
  /-- The last command raised an error that has not been cleared. -/
  | failed
  deriving DecidableEq, Repr

/-- The six key registers `KN`, `KE`, `KD`, `KP`, `KQ`, `KPHI` (R25 to R29). -/
structure KeyRegs where
  n : Word
  e : Word
  d : Word
  p : Word
  q : Word
  phi : Word
  deriving DecidableEq, Repr

/-- A base and a length register: the `BUF` region (R36, R37) or the `DAT` region (R38, R39); see R64. -/
structure Region where
  base : Word32
  len : Word32
  deriving DecidableEq, Repr

/-- Buffer memory as the bytes written so far, by rising address (R60, R62; log entry 4). -/
abbrev Memory := List Host.Cell

/-- A host transaction (R9, R40, R63). -/
inductive Access where
  /-- `RegRead(r)`. -/
  | regRead (r : RegNum)
  /-- `RegWrite(r, v)`. -/
  | regWrite (r : RegNum) (v : Word)
  /-- `HostMemRead(addr)`. -/
  | memRead (addr : Word32)
  /-- `HostMemWrite(addr, v)`. -/
  | memWrite (addr : Word32) (v : Byte)
  deriving DecidableEq, Repr

/-- A transaction of the run's script. `inWindow` says that the host performs it while the command accepted just before it is still
executing (R214), without waiting for `BUSY = 0`; it says nothing when no command is executing (log entry 2). -/
structure HostEvent where
  access : Access
  inWindow : Bool
  deriving DecidableEq, Repr

/-- What a read transaction returned (R40, R63). -/
inductive Response where
  | word (v : Word)
  | byte (v : Byte)
  deriving DecidableEq, Repr

/-- Why the machine could stop with a fault. There is no such reason: an error of this hardware is a next state (R188), every host
transaction has an outcome (R40 to R43, R61, R214), and no command accesses memory that does not exist (R61). -/
inductive Fault where
  deriving DecidableEq, Repr

/-- Why an instruction could have no meaning. -/
inductive Refusal where
  /-- The instruction is not modelled yet. Raised by nobody: every command has its meaning. Safe (a stop claims nothing). -/
  | notModelled (mnemonic : String)
  deriving DecidableEq, Repr

/-- The state of the machine (R20). -/
structure State where
  /-- `OPA` (R21). -/
  opa : Word
  /-- `OPB` (R22). -/
  opb : Word
  /-- `OPC` (R23). -/
  opc : Word
  /-- `RES` (R24). -/
  res : Word
  /-- `KN`, `KE`, `KD`, `KP`, `KQ`, `KPHI` (R25 to R29). -/
  keys : KeyRegs
  /-- `STATUS.BUSY`, `STATUS.DONE`, `STATUS.ERR` (R30, R31). -/
  seq : Sequencer
  /-- `STATUS.FLAG` (R31). -/
  flag : Bool
  /-- `PRNG` (R32). -/
  prng : Word32
  /-- `ERRCODE` (R34). -/
  errcode : Word32
  /-- `ERRINFO` (R35). -/
  errinfo : Word32
  /-- `BUF_BASE`, `BUF_LEN` (R36, R37). -/
  buf : Region
  /-- `DAT_BASE`, `DAT_LEN` (R38, R39). -/
  dat : Region
  /-- `BITCNT` (R44). -/
  bitcnt : Word32
  /-- `HDRBITS` (R45). -/
  hdrbits : Word32
  /-- The buffer memory's bytes that have been written (R60, R62; log entry 4). -/
  mem : Memory
  /-- The model's own: the transactions the host has still to perform, the next one first (R46; log entry 1). -/
  script : List HostEvent
  /-- The model's own: the values that the reads of the latest step returned, in order (log entry 8). -/
  responses : List Response
  /-- The model's own: how many free values the reads made while busy have taken (log entry 3). -/
  freeIndex : Nat
  deriving DecidableEq, Repr

/-- The key registers after reset (R47). -/
def KeyRegs.zero : KeyRegs := { n := 0, e := 0, d := 0, p := 0, q := 0, phi := 0 }

/-- A region after reset: empty and at address 0 (R47). -/
def Region.zero : Region := { base := 0, len := 0 }

/-- The machine right after power-on reset (R47, R211): every register 0 but `PRNG = 1`, the sequencer idle, no byte of memory
written; no transaction to perform yet (log entries 1, 3, 8). -/
def State.reset : State :=
  { opa := 0, opb := 0, opc := 0, res := 0, keys := KeyRegs.zero, seq := .idle, flag := false, prng := Config.prngReset,
    errcode := 0, errinfo := 0, buf := Region.zero, dat := Region.zero, bitcnt := 0, hdrbits := 0, mem := [],
    script := [], responses := [], freeIndex := 0 }

end Sys2Proof.Machine
end

