-- ==== Sys2Proof/Machine/Ops.lean ====
section
/-! DEFINITION. The operations that the commands share: buffer memory (spec/20_memory.md), digit sequences and runs of byte stores,
taking an error and the ways a command ends (spec/60_exceptions.md R188, R190, spec/45_system_commands.md R171). -/

namespace Sys2Proof.Machine

/-! ### Buffer memory -/

/-- What has been written at an address; `none` where nothing has. -/
def Memory.lookup : Memory → Nat → Option Byte
  | [], _ => none
  | (b, v) :: m, a => if a = b then some v else Memory.lookup m a

/-- Stores a byte in the sorted list of cells, replacing the cell of the same address. -/
def Memory.insert : Memory → Nat → Byte → Memory
  | [], a, v => [(a, v)]
  | (b, u) :: m, a, v =>
    if a < b then (a, v) :: (b, u) :: m
    else if a = b then (a, v) :: m
    else (b, u) :: Memory.insert m a v

/-- Addresses strictly rising. -/
def Memory.rising : Memory → Bool
  | [] => true
  | [_] => true
  | (a, _) :: (b, v) :: m => a < b && Memory.rising ((b, v) :: m)

/-- The canonical form: addresses strictly rising and backed by storage (R61). An unlisted address reads as no written byte, so no
entry equals what an unlisted address reads as (log entry 4). -/
def Memory.wf (m : Memory) : Bool := m.rising && m.all (fun c => c.1 < Config.memSize)

/-- The byte at an address: the last one written, or the unspecified byte it held at power-on (R62, R69); 0 at an address that no
storage backs (R61). -/
def Memory.read (m : Memory) (a : Nat) : Byte :=
  if a < Config.memSize then (m.lookup a).getD (Config.powerOnByte a) else 0

/-- Stores a byte; a write to an address that no storage backs changes nothing (R61, R69). -/
def Memory.write (m : Memory) (a : Nat) (v : Byte) : Memory :=
  if a < Config.memSize then m.insert a v else m

/-! ### Sequences -/

/-- The number with the `n` digits `f 0, ..., f (n - 1)` in the given base, the first the most significant: `v <- 0`, then
`v <- base × v + f i` for `i` in `0 .. n - 1` (R103, R105, R140). -/
def assemble (base : Nat) (f : Nat → Nat) : Nat → Nat
  | 0 => 0
  | n + 1 => base * assemble base f n + f n

/-- `MemWrite(base + i, 1, f i)` for `i` in `0 .. n - 1` in that order, each byte computed from the memory as it is before its own
store (R70, R103, R105, R141). -/
def storeBytes (base : Nat) (f : Memory → Nat → Byte) : Nat → Memory → Memory
  | 0, m => m
  | n + 1, m =>
    let m' := storeBytes base f n m
    m'.write (base + n) (f m' n)

/-- `ceil(a / b)` (R8). -/
def ceilDiv (a b : Nat) : Nat := (a + b - 1) / b

/-- `bitlen(v)` (R8). -/
def bitlen (v : Nat) : Nat := if v = 0 then 0 else Nat.log2 v + 1

/-! ### Errors and the ends of a command -/

/-- The errors of the hardware (R180). -/
inductive ErrorCause where
  /-- `CapacityError` (R181): the slots needed. -/
  | capacity (slots : Nat)
  /-- `KeyGenerationError` (R182): the stage, 1 to 3. -/
  | keyGeneration (stage : Nat)
  /-- `MessageTooLargeError` (R183). -/
  | messageTooLarge
  /-- `MalformedKeyError` (R185): the code is reserved; nothing raises it (log entry 16). -/
  | malformedKey
  /-- `FrameCorruptionError` (R184): the slots needed. -/
  | frameCorruption (slots : Nat)
  /-- `IllegalCommand` (R186): the word. -/
  | illegalCommand (word : Word32)
  /-- `IllegalOperand` (R189): the sub-code, 1 to 10. -/
  | illegalOperand (sub : Nat)
  deriving DecidableEq, Repr

/-- The code of an error (R180). -/
def ErrorCause.code : ErrorCause → Nat
  | .capacity _ => 1
  | .keyGeneration _ => 2
  | .messageTooLarge => 3
  | .malformedKey => 4
  | .frameCorruption _ => 5
  | .illegalCommand _ => 6
  | .illegalOperand _ => 7

/-- What `ERRINFO` records of an error (R187); the slots of `CapacityError` saturate. -/
def ErrorCause.info : ErrorCause → Nat
  | .capacity slots => min slots (2 ^ 32 - 1)
  | .keyGeneration stage => stage
  | .messageTooLarge => 0
  | .malformedKey => 0
  | .frameCorruption slots => slots
  | .illegalCommand word => word.toNat
  | .illegalOperand sub => sub

/-- Error entry, `raise E(info)` (R188): `BUSY <- 0`, `DONE <- 0`, `ERR <- 1`, `ERRCODE` and `ERRINFO` written, nothing else. -/
def raiseError (e : ErrorCause) (s : State) : State :=
  { s with seq := .failed, errcode := BitVec.ofNat 32 e.code, errinfo := BitVec.ofNat 32 e.info }

/-- Successful completion, `done` (R190): `BUSY <- 0`, `DONE <- 1`. -/
def finish (s : State) : State := { s with seq := .done }

/-- The return from an error (R171, R193): `ERR`, `ERRCODE` and `ERRINFO` cleared, then `done`. -/
def clearError (s : State) : State := finish { s with errcode := 0, errinfo := 0 }

/-- The reset of every register; the buffer memory keeps its content (R47, R172, R62), and so do the model's own fields
(log entry 17). -/
def resetRegisters (s : State) : State :=
  { State.reset with mem := s.mem, script := s.script, responses := s.responses, freeIndex := s.freeIndex }

/-- Acceptance in idle or done (R87): `DONE <- 0`, `BUSY <- 1`. -/
def acceptCommand (s : State) : State := { s with seq := .busy }

end Sys2Proof.Machine
end

