-- ==== Sys2Proof/Machine/Flags.lean ====
section
/-! DEFINITION. `STATUS` (spec/10_state.md R30, R31) and the capacity check that `FITS` puts into `FLAG` (spec/41_bitpack_codec.md
R108, R110). -/

namespace Sys2Proof.Machine

/-- The bit `BUSY` (R30). -/
def Sequencer.busyBit : Sequencer → Bool
  | .busy => true
  | .idle => false
  | .done => false
  | .failed => false

/-- The bit `DONE` (R30). -/
def Sequencer.doneBit : Sequencer → Bool
  | .done => true
  | .idle => false
  | .busy => false
  | .failed => false

/-- The bit `ERR` (R30). -/
def Sequencer.errBit : Sequencer → Bool
  | .failed => true
  | .idle => false
  | .busy => false
  | .done => false

/-- The register `STATUS` (R31): `BUSY` in bit 0, `DONE` in bit 1, `ERR` in bit 2, `FLAG` in bit 3, bits 31:4 read as 0. -/
def statusWord (s : State) : Word32 :=
  BitVec.ofNat 32
    (s.seq.busyBit.toNat + 2 * s.seq.doneBit.toNat + 4 * s.seq.errBit.toNat + 8 * s.flag.toNat)

/-- `max_payload_bits(buffer_length, k)` (R108), in unbounded integers. -/
def maxPayloadBits (bufferLength k : Nat) : Nat := bufferLength * k

/-- `fits(buffer_length, k, header_bits, payload_bits)` (R108), in unbounded integers. -/
def fitsFlag (bufferLength k headerBits payloadBits : Nat) : Bool :=
  headerBits + payloadBits ≤ maxPayloadBits bufferLength k

end Sys2Proof.Machine
end

