-- ==== Sys2Proof/Machine/Operands.lean ====
section
/-! DEFINITION. Operand access: the register map and its read and write rules (spec/10_state.md R31 to R45), and the region checks
(spec/20_memory.md R64, R65, spec/41_bitpack_codec.md R112). -/

namespace Sys2Proof.Machine

/-- The implemented registers (R41). -/
inductive Reg where
  | opa | opb | opc | res
  | kn | ke | kd | kp | kq | kphi
  | cmd | status | errcode | errinfo | prng
  | bufBase | bufLen | datBase | datLen | bitcnt | hdrbits
  deriving DecidableEq, Repr

/-- The register map (R41); a number not listed is unimplemented (R42). -/
def Reg.ofNumber (r : RegNum) : Option Reg :=
  match r.val with
  | 0x00 => some .opa
  | 0x01 => some .opb
  | 0x02 => some .opc
  | 0x03 => some .res
  | 0x04 => some .kn
  | 0x05 => some .ke
  | 0x06 => some .kd
  | 0x07 => some .kp
  | 0x08 => some .kq
  | 0x09 => some .kphi
  | 0x10 => some .cmd
  | 0x11 => some .status
  | 0x12 => some .errcode
  | 0x13 => some .errinfo
  | 0x14 => some .prng
  | 0x16 => some .bufBase
  | 0x17 => some .bufLen
  | 0x18 => some .datBase
  | 0x19 => some .datLen
  | 0x1A => some .bitcnt
  | 0x1B => some .hdrbits
  | _ => none

/-- A 32-bit value zero-extended to the port's width (R43). -/
def zextWord (v : Word32) : Word := v.setWidth 64

/-- The low 32 bits of the port's data, `trunc_32` (R43, R33). -/
def truncWord (v : Word) : Word32 := v.setWidth 32

/-- The value a host read of a register returns (R41, R43); `CMD` reads as 0 (R33). -/
def readReg (r : Reg) (s : State) : Word :=
  match r with
  | .opa => s.opa
  | .opb => s.opb
  | .opc => s.opc
  | .res => s.res
  | .kn => s.keys.n
  | .ke => s.keys.e
  | .kd => s.keys.d
  | .kp => s.keys.p
  | .kq => s.keys.q
  | .kphi => s.keys.phi
  | .cmd => 0
  | .status => zextWord (statusWord s)
  | .errcode => zextWord s.errcode
  | .errinfo => zextWord s.errinfo
  | .prng => zextWord s.prng
  | .bufBase => zextWord s.buf.base
  | .bufLen => zextWord s.buf.len
  | .datBase => zextWord s.dat.base
  | .datLen => zextWord s.dat.len
  | .bitcnt => zextWord s.bitcnt
  | .hdrbits => zextWord s.hdrbits

/-- The store of a host write to a register (R41, R43): `STATUS`, `ERRCODE` and `ERRINFO` ignore it. `CMD` is no storage (R33): what a
write to it does is `commandWrite` of Sequencer.lean, and nothing is stored. -/
def writeReg (r : Reg) (v : Word) (s : State) : State :=
  match r with
  | .opa => { s with opa := v }
  | .opb => { s with opb := v }
  | .opc => { s with opc := v }
  | .res => { s with res := v }
  | .kn => { s with keys := { s.keys with n := v } }
  | .ke => { s with keys := { s.keys with e := v } }
  | .kd => { s with keys := { s.keys with d := v } }
  | .kp => { s with keys := { s.keys with p := v } }
  | .kq => { s with keys := { s.keys with q := v } }
  | .kphi => { s with keys := { s.keys with phi := v } }
  | .cmd => s
  | .status => s
  | .errcode => s
  | .errinfo => s
  | .prng => { s with prng := truncWord v }
  | .bufBase => { s with buf := { s.buf with base := truncWord v } }
  | .bufLen => { s with buf := { s.buf with len := truncWord v } }
  | .datBase => { s with dat := { s.dat with base := truncWord v } }
  | .datLen => { s with dat := { s.dat with len := truncWord v } }
  | .bitcnt => { s with bitcnt := truncWord v }
  | .hdrbits => { s with hdrbits := truncWord v }

/-- `RegRead(r)` when the engine is not busy (R40); an unimplemented register reads as 0 (R42). -/
def readRegNum (r : RegNum) (s : State) : Word :=
  match Reg.ofNumber r with
  | some reg => readReg reg s
  | none => 0

/-- The store of `RegWrite(r, v)` when the engine is not busy (R40); a write to an unimplemented register changes nothing (R42). -/
def writeRegNum (r : RegNum) (v : Word) (s : State) : State :=
  match Reg.ofNumber r with
  | some reg => writeReg reg v s
  | none => s

/-! ### Regions -/

/-- The region lies inside memory, the sum taken in unbounded integers (R65). -/
def Region.inside (r : Region) : Bool := r.base.toNat + r.len.toNat ≤ Config.memSize

/-- The two regions overlap (R65). -/
def Region.overlaps (a b : Region) : Bool :=
  0 < a.len.toNat && 0 < b.len.toNat &&
    a.base.toNat < b.base.toNat + b.len.toNat && b.base.toNat < a.base.toNat + a.len.toNat

/-- The group size is legal (R112 check 1, R110). -/
def groupSizeLegal (k : Nat) : Bool := Config.kMin ≤ k && k ≤ Config.kMax

/-- The prime size is legal (R151). -/
def primeSizeLegal (b : Nat) : Bool := 2 ≤ b && b ≤ Config.pw

/-- The common operand checks of `PACK` and `UNPACK` in their order: the sub-code of the first that fails (R112). -/
def codecCheck (k : Nat) (s : State) : Option Nat :=
  if !groupSizeLegal k then some 1
  else if !s.buf.inside then some 3
  else if !s.dat.inside then some 4
  else if s.buf.overlaps s.dat then some 5
  else none

/-- The checks that `LDINT` and `STINT` share, in their order (R140, R141). -/
def intCheck (s : State) : Option Nat :=
  if !s.dat.inside then some 4
  else if Config.w / 8 < s.dat.len.toNat then some 6
  else none

end Sys2Proof.Machine
end

