-- ==== Sys2Proof/Machine/Codec.lean ====
section
/-! DEFINITION. The bit pack/unpack codec and the capacity check (spec/41_bitpack_codec.md). -/

namespace Sys2Proof.Machine

/-- Stream bit `idx` of the `nbits` bits of the bytes from `base` on, most significant bit first in each byte (R101); 0 beyond the
stream's end, the fill of the last group (R102). -/
def streamBit (m : Memory) (base nbits idx : Nat) : Nat :=
  if idx < nbits then ((m.read (base + idx / 8)).toNat >>> (7 - idx % 8)) &&& 1 else 0

/-- Group `j` of the stream: `k` bits, the earlier the more significant (R102). -/
def packGroup (m : Memory) (base nbits k j : Nat) : Nat :=
  assemble 2 (fun t => streamBit m base nbits (j * k + t)) k

/-- The new value of slot `j`: the group in the low `k` bits, the bits above kept (R103). -/
def packSlot (buf dat : Region) (k : Nat) (m : Memory) (j : Nat) : Byte :=
  let old := (m.read (buf.base.toNat + j)).toNat
  BitVec.ofNat 8 (old - old % 2 ^ k + packGroup m dat.base.toNat (8 * dat.len.toNat) k j)

/-- The slots that `PACK k` needs (R102, R103). -/
def packSlots (k : Nat) (s : State) : Nat := ceilDiv (8 * s.dat.len.toNat) k

/-- `PACK k` (R103). -/
def execPack (k : Nat) (s : State) : Host.Outcome State Fault Refusal :=
  match codecCheck k s with
  | some sub => .next (raiseError (.illegalOperand sub) s)
  | none =>
    if s.buf.len.toNat < packSlots k s then .next (raiseError (.capacity (packSlots k s)) s)
    else .next (finish { s with mem := storeBytes s.buf.base.toNat (packSlot s.buf s.dat k) (packSlots k s) s.mem })

/-- Recovered bit `idx` of `n`: bit `k - 1 - (idx mod k)` of slot `idx div k`; 0 beyond the `n` bits (R105). -/
def recoveredBit (m : Memory) (base n k idx : Nat) : Nat :=
  if idx < n then ((m.read (base + idx / k)).toNat >>> (k - 1 - idx % k)) &&& 1 else 0

/-- Byte `i` of the output of `UNPACK k` (R105). -/
def unpackByte (buf : Region) (n k : Nat) (m : Memory) (i : Nat) : Byte :=
  BitVec.ofNat 8 (assemble 2 (fun t => recoveredBit m buf.base.toNat n k (8 * i + t)) 8)

/-- The bytes that `UNPACK` writes (R105). -/
def unpackBytes (s : State) : Nat := ceilDiv s.bitcnt.toNat 8

/-- The slots that `UNPACK k` reads (R105). -/
def unpackSlots (k : Nat) (s : State) : Nat := ceilDiv s.bitcnt.toNat k

/-- `UNPACK k` (R105). -/
def execUnpack (k : Nat) (s : State) : Host.Outcome State Fault Refusal :=
  match codecCheck k s with
  | some sub => .next (raiseError (.illegalOperand sub) s)
  | none =>
    if s.dat.len.toNat < unpackBytes s then .next (raiseError (.illegalOperand 9) s)
    else if s.buf.len.toNat < unpackSlots k s then .next (raiseError (.frameCorruption (unpackSlots k s)) s)
    else
      .next (finish { s with
        mem := storeBytes s.dat.base.toNat (unpackByte s.buf s.bitcnt.toNat k) (unpackBytes s) s.mem })

/-- `FITS k` (R110). -/
def execFits (k : Nat) (s : State) : Host.Outcome State Fault Refusal :=
  if !groupSizeLegal k then .next (raiseError (.illegalOperand 1) s)
  else .next (finish { s with flag := fitsFlag s.buf.len.toNat k s.hdrbits.toNat s.bitcnt.toNat })

end Sys2Proof.Machine
end

