-- ==== Sys2Proof/Machine/Modexp.lean ====
section
/-! DEFINITION. The modular exponentiation engine (spec/42_modexp_engine.md). -/

namespace Sys2Proof.Machine

/-- The loop of R120 over the exponent's bits `i - 1 downto 0`. -/
def modexpLoop (e bb n : Nat) : Nat → Nat → Nat
  | 0, r => r
  | i + 1, r =>
    let sq := r * r % n
    modexpLoop e bb n i (if e.testBit i then sq * bb % n else sq)

/-- `modexp(b, e, n)` by left-to-right square-and-multiply (R120). -/
def modexp (b e n : Nat) : Nat := modexpLoop e (b % n) n (bitlen e) (1 % n)

/-- The effect that `MODEXP`, `ENCRYPT` and `DECRYPT` share once their checks have passed (R124): the power residue goes to `RES`. -/
def powerToRes (base exponent modulus : Word) (s : State) : State :=
  finish { s with res := BitVec.ofNat 64 (modexp base.toNat exponent.toNat modulus.toNat) }

/-- `MODEXP` (R121). -/
def execModexp (s : State) : Host.Outcome State Fault Refusal :=
  if s.opc = 0 then .next (raiseError (.illegalOperand 8) s)
  else .next (powerToRes s.opa s.opb s.opc s)

end Sys2Proof.Machine
end

