-- ==== Sys2Proof/Machine/Prime.lean ====
section
/-! DEFINITION. The small prime generator (spec/44_prime_generator.md). -/

namespace Sys2Proof.Machine

/-- One draw: the next state of the 32-bit xorshift generator, which is also the value drawn (R150). -/
def draw (s : Word32) : Word32 :=
  let s := s ^^^ (s <<< 13)
  let s := s ^^^ (s >>> 17)
  s ^^^ (s <<< 5)

/-- Candidate formation, `(r mod 2^B) | 2^(B-1) | 1` (R151). -/
def cand (r b : Nat) : Nat := (r % 2 ^ b) ||| 2 ^ (b - 1) ||| 1

/-- The loop of R152: no odd number from `d` up whose square is at most `c` divides `c`. The first argument bounds the number of
rounds; `c` rounds are more than the loop runs (log entry 10). -/
def noOddDivisorFrom (c : Nat) : Nat → Nat → Bool
  | 0, _ => true
  | fuel + 1, d =>
    if d * d ≤ c then (if c % d = 0 then false else noOddDivisorFrom c fuel (d + 2)) else true

/-- `is_prime(c)` by trial division (R152). -/
def isPrime (c : Nat) : Bool :=
  if c < 2 then false
  else if c = 2 then true
  else if c % 2 = 0 then false
  else noOddDivisorFrom c c 3

/-- `prime_search(B, excl)` with a given number of candidates left (R153): the prime found, if any, and the state of the generator
after the draws made. -/
def primeSearch (b excl : Nat) : Nat → Word32 → Option Nat × Word32
  | 0, s => (none, s)
  | t + 1, s =>
    let c := cand (draw s).toNat b
    if c ≠ excl ∧ isPrime c = true then (some c, draw s) else primeSearch b excl t (draw s)

/-- `PRIMEGEN B` (R154). -/
def execPrimegen (b : Nat) (s : State) : Host.Outcome State Fault Refusal :=
  if !primeSizeLegal b then .next (raiseError (.illegalOperand 2) s)
  else
    let found := primeSearch b 0 Config.retryMax s.prng
    match found.1 with
    | none => .next (raiseError (.keyGeneration 1) { s with prng := found.2 })
    | some p => .next (finish { s with prng := found.2, res := BitVec.ofNat 64 p })

/-- `PTEST` (R155). -/
def execPtest (s : State) : Host.Outcome State Fault Refusal :=
  if 2 ^ Config.pw ≤ s.opa.toNat then .next (raiseError (.illegalOperand 10) s)
  else .next (finish { s with flag := isPrime s.opa.toNat })

end Sys2Proof.Machine
end

