-- ==== Sys2Proof/Machine/Rsa.lean ====
section
/-! DEFINITION. The RSA encrypt/decrypt block (spec/43_rsa_block.md). -/

namespace Sys2Proof.Machine

/-- `ENCRYPT` (R131): the modulus check comes before the range check (R191). -/
def execEncrypt (s : State) : Host.Outcome State Fault Refusal :=
  if s.keys.n = 0 then .next (raiseError (.illegalOperand 8) s)
  else if s.keys.n.toNat ≤ s.opa.toNat then .next (raiseError .messageTooLarge s)
  else .next (powerToRes s.opa s.keys.e s.keys.n s)

/-- `DECRYPT` (R132): no range check on the cipher integer. -/
def execDecrypt (s : State) : Host.Outcome State Fault Refusal :=
  if s.keys.n = 0 then .next (raiseError (.illegalOperand 8) s)
  else .next (powerToRes s.opa s.keys.d s.keys.n s)

/-! ### KEYGEN -/

/-- The loop of `choose_e` (R135) with a given number of candidates left. -/
def chooseFrom (phi : Nat) : Nat → Nat → Option Nat
  | 0, _ => none
  | t + 1, e =>
    if phi ≤ e then none
    else if Nat.gcd e phi = 1 then some e
    else chooseFrom phi t (e + 2)

/-- `choose_e(phi)` (R135). -/
def chooseE (phi : Nat) : Option Nat :=
  chooseFrom phi Config.eTriesMax (if Config.ePreferred < phi then Config.ePreferred else Config.eFallback)

/-- The loop of `modinv` (R136): the final `t0`. The first argument bounds the number of rounds (log entry 10). -/
def euclid : Nat → Nat → Nat → Int → Int → Int
  | 0, _, _, t0, _ => t0
  | fuel + 1, r0, r1, t0, t1 =>
    if r1 = 0 then t0
    else euclid fuel r1 (r0 - r0 / r1 * r1) t1 (t0 - (r0 / r1 : Nat) * t1)

/-- `modinv(e, phi)` (R136): the representative in `[0, phi)`; the remainders fall from `e`, so `e + 1` rounds suffice. -/
def modinv (e phi : Nat) : Nat := (euclid (e + 1) phi e 0 1 % (phi : Int)).toNat

/-- The key registers of the primes `p`, `q` and the exponent `e` (R134). -/
def keyRegs (p q e : Nat) : KeyRegs :=
  let phi := (p - 1) * (q - 1)
  { n := BitVec.ofNat 64 (p * q), e := BitVec.ofNat 64 e, d := BitVec.ofNat 64 (modinv e phi),
    p := BitVec.ofNat 64 p, q := BitVec.ofNat 64 q, phi := BitVec.ofNat 64 phi }

/-- The end of `KEYGEN` once both primes are found: the exponents and the six key registers (R134). -/
def keygenFinish (p q : Nat) (s : State) : State :=
  match chooseE ((p - 1) * (q - 1)) with
  | none => raiseError (.keyGeneration 3) s
  | some e => finish { s with keys := keyRegs p q e }

/-- The search for `q` and what follows it (R134). -/
def keygenSecond (b p : Nat) (s : State) : State :=
  let found := primeSearch b p Config.retryMax s.prng
  match found.1 with
  | none => raiseError (.keyGeneration 2) { s with prng := found.2 }
  | some q => keygenFinish p q { s with prng := found.2 }

/-- The search for `p` and what follows it (R134). -/
def keygenFirst (b : Nat) (s : State) : State :=
  let found := primeSearch b 0 Config.retryMax s.prng
  match found.1 with
  | none => raiseError (.keyGeneration 1) { s with prng := found.2 }
  | some p => keygenSecond b p { s with prng := found.2 }

/-- `KEYGEN B` (R134): the key registers are cleared before the search and filled only on success. -/
def execKeygen (b : Nat) (s : State) : Host.Outcome State Fault Refusal :=
  if !primeSizeLegal b then .next (raiseError (.illegalOperand 2) s)
  else .next (keygenFirst b { s with keys := KeyRegs.zero })

/-! ### Byte payload to integer and back -/

/-- `int_of_bytes` of a region (R139). -/
def intOfRegion (m : Memory) (r : Region) : Nat :=
  assemble 256 (fun i => (m.read (r.base.toNat + i)).toNat) r.len.toNat

/-- Byte `i` of `bytes_of_int(v, L)` (R139). -/
def byteOfInt (v len i : Nat) : Byte := BitVec.ofNat 8 (v / 256 ^ (len - 1 - i) % 256)

/-- `LDINT` (R140). -/
def execLdint (s : State) : Host.Outcome State Fault Refusal :=
  match intCheck s with
  | some sub => .next (raiseError (.illegalOperand sub) s)
  | none => .next (finish { s with opa := BitVec.ofNat 64 (intOfRegion s.mem s.dat) })

/-- `STINT` (R141). -/
def execStint (s : State) : Host.Outcome State Fault Refusal :=
  match intCheck s with
  | some sub => .next (raiseError (.illegalOperand sub) s)
  | none =>
    if 256 ^ s.dat.len.toNat ≤ s.res.toNat then .next (raiseError (.illegalOperand 7) s)
    else
      .next (finish { s with
        mem := storeBytes s.dat.base.toNat (fun _ i => byteOfInt s.res.toNat s.dat.len.toNat i) s.dat.len.toNat s.mem })

end Sys2Proof.Machine
end

