-- ==== Sys2Proof/Machine/System.lean ====
section
/-! DEFINITION. The system commands (spec/45_system_commands.md R170 to R172). -/

namespace Sys2Proof.Machine

/-- `NOP` (R170). -/
def execNop (s : State) : Host.Outcome State Fault Refusal := .next (finish s)

/-- `CLRERR` (R171). -/
def execClrerr (s : State) : Host.Outcome State Fault Refusal := .next (clearError s)

/-- `SRST` (R172): it does not end in `done`; the sequencer is idle after it. -/
def execSrst (s : State) : Host.Outcome State Fault Refusal := .next (resetRegisters s)

end Sys2Proof.Machine
end

