-- ==== Sys2Proof/Machine/Dispatch.lean ====
section
/-! DEFINITION. The meaning of every command: one arm per constructor of `Instr`, each one call (spec/30_encoding.md R85). -/

namespace Sys2Proof.Machine

def exec (i : Instr) (s : State) : Host.Outcome State Fault Refusal :=
  match i with
  | .nop => Sys2Proof.Machine.execNop s
  | .clrerr => Sys2Proof.Machine.execClrerr s
  | .srst => Sys2Proof.Machine.execSrst s
  | .modexp => Sys2Proof.Machine.execModexp s
  | .encrypt => Sys2Proof.Machine.execEncrypt s
  | .decrypt => Sys2Proof.Machine.execDecrypt s
  | .keygen b => Sys2Proof.Machine.execKeygen b s
  | .ldint => Sys2Proof.Machine.execLdint s
  | .stint => Sys2Proof.Machine.execStint s
  | .primegen b => Sys2Proof.Machine.execPrimegen b s
  | .ptest => Sys2Proof.Machine.execPtest s
  | .pack k => Sys2Proof.Machine.execPack k s
  | .unpack k => Sys2Proof.Machine.execUnpack k s
  | .fits k => Sys2Proof.Machine.execFits k s

end Sys2Proof.Machine
end

