-- ==== Sys2Proof/Machine/Sequencer.lean ====
section
/-! DEFINITION. The host's transactions on the two ports, the acceptance of a command (spec/30_encoding.md R87) and the busy window
(spec/70_reset_and_hazards.md R214, R215; log entry 2). -/

namespace Sys2Proof.Machine

/-- The register number of `CMD` (R33). -/
def cmdNumber : RegNum := 0x10

/-- The register number of `STATUS` (R31). -/
def statusNumber : RegNum := 0x11

/-- A read transaction returns a value to the host (log entry 8). -/
def respond (x : Response) (s : State) : State := { s with responses := s.responses ++ [x] }

/-- A transaction performed while `BUSY = 1` (R214): a read of `STATUS` is answered, any other read returns an unspecified value, and
every write is dropped. -/
def busyAccess (a : Access) (s : State) : State :=
  match a with
  | .regRead r =>
    if r = statusNumber then respond (.word (readReg .status s)) s
    else { respond (.word (Config.busyWord s.freeIndex)) s with freeIndex := s.freeIndex + 1 }
  | .regWrite _ _ => s
  | .memRead _ => { respond (.byte (Config.busyByte s.freeIndex)) s with freeIndex := s.freeIndex + 1 }
  | .memWrite _ _ => s

/-- The transactions of the busy window, in their order. -/
def runWindow : List HostEvent → State → State
  | [], s => s
  | e :: es, s => runWindow es (busyAccess e.access s)

/-- The transactions at the head of the script that the host performs without waiting for the running command. -/
def windowOf (s : State) : List HostEvent := s.script.takeWhile (fun e => e.inWindow)

/-- The script without those transactions. -/
def withoutWindow (s : State) : State := { s with script := s.script.dropWhile (fun e => e.inWindow) }

/-- The state in which an accepted command executes: `BUSY` set, and the window's transactions performed; they change nothing but what
the host has read (R87, R214). -/
def duringCommand (s : State) : State := runWindow (windowOf s) (acceptCommand (withoutWindow s))

/-- The command word `w` accepted in idle or done (R87): an illegal word raises `IllegalCommand` (R186), any other executes. -/
def executeWord (w : Word32) (s : State) : Host.Outcome State Fault Refusal :=
  match decode w with
  | .instr i => exec i (duringCommand s)
  | .illegal _ => .next (raiseError (.illegalCommand w) (duringCommand s))

/-- `RegWrite(CMD, v)` with `w = trunc_32(v)` (R87). In failed only `CLRERR` and `SRST` are accepted, and they execute without a busy
window (log entry 7); every other word is dropped (R194). -/
def commandWrite (w : Word32) (s : State) : Host.Outcome State Fault Refusal :=
  match s.seq with
  | .busy => .next s
  | .failed =>
    if w = encode .clrerr then exec .clrerr s
    else if w = encode .srst then exec .srst s
    else .next s
  | .idle => executeWord w s
  | .done => executeWord w s

/-- One host transaction (R4, R40, R63): R214 while `BUSY = 1`, else the port's own rule. -/
def transact (a : Access) (s : State) : Host.Outcome State Fault Refusal :=
  if s.seq = .busy then .next (busyAccess a s)
  else
    match a with
    | .regRead r => .next (respond (.word (readRegNum r s)) s)
    | .regWrite r v => if r = cmdNumber then commandWrite (truncWord v) s else .next (writeRegNum r v s)
    | .memRead addr => .next (respond (.byte (s.mem.read addr.toNat)) s)
    | .memWrite addr v => .next { s with mem := s.mem.write addr.toNat v }

/-- The machine's step: the next transaction of the script is performed; the values of earlier reads are gone (log entry 8). With no
transaction to perform the machine waits and keeps all its state (R198; log entry 9). -/
def runNext (s : State) : Host.Outcome State Fault Refusal :=
  match s.script with
  | [] => .next s
  | e :: rest => transact e.access { s with script := rest, responses := [] }

/-- The transaction that presents the command word `w`: `RegWrite(CMD, w)` by a host that waits for the engine first (R213). -/
def commandEvent (w : Nat) : HostEvent := { access := .regWrite cmdNumber (BitVec.ofNat 64 w), inWindow := false }

/-- The state whose next transaction presents the command word `w`. -/
def presentWord (w : Nat) (s : State) : State := { s with script := commandEvent w :: s.script }

end Sys2Proof.Machine
end

