-- ==== Sys2Proof/Machine/Step.lean ====
section
/-! DEFINITION. One step of the machine: one host transaction (spec/00_scope.md R4). -/

namespace Sys2Proof.Machine

/-- One step (R4, R215). -/
def step (s : State) : Host.Outcome State Fault Refusal := runNext s

/-- `s` with the command word `w` (of an opcode-table row of `nbits` bits) as what the host writes to `CMD` next (log entry 1): the
hardware fetches no instruction from memory (R30, R74). -/
def State.withFetchWord (s : State) (nbits w : Nat) : State := presentWord (w % 2 ^ nbits) s

end Sys2Proof.Machine
end

