-- ==== Sys2Proof/Safety.lean ====
section
/-! DEFINITION. The terms that claims are stated in: the invariant of the machine, a host that respects the busy window, and the states
that an error and a transaction leave. -/

namespace Sys2Proof.Machine

/-- The state that `raise` leaves with a code and an information value (spec/60_exceptions.md R188): nothing else is changed. -/
def State.failedWith (s : State) (code info : Nat) : State :=
  { s with seq := .failed, errcode := BitVec.ofNat 32 code, errinfo := BitVec.ofNat 32 info }

/-- The state in which the transaction at the head of the script is performed: the script is what follows it, and no read has
returned a value yet. -/
def State.popped (s : State) (rest : List HostEvent) : State := { s with script := rest, responses := [] }

/-- No transaction at the head of the script is performed while the command before it runs: the host polls first (R213). -/
def noWindow (rest : List HostEvent) : Prop := ∀ e ∈ rest.head?, e.inWindow = false

/-- What `ERRCODE` and `ERRINFO` can hold in the failed state (R180, R187, R189). Code 4 never occurs (R185). -/
def errorRecordLegal (code info : Nat) : Bool :=
  match code with
  | 1 => 1 ≤ info
  | 2 => 1 ≤ info && info ≤ 3
  | 3 => info = 0
  | 5 => 1 ≤ info
  | 6 => match decode (BitVec.ofNat 32 info) with
    | .instr _ => false
    | .illegal _ => true
  | 7 => 1 ≤ info && info ≤ 10
  | _ => false

/-- The invariant of the machine between two transactions. -/
structure State.Inv (s : State) : Prop where
  /-- The buffer memory is in canonical form and holds no byte that no storage backs (R61). -/
  memCanonical : s.mem.wf = true
  /-- No command is executing: a command completes within the transaction that starts it (R215). -/
  resting : s.seq ≠ .busy
  /-- `ERRCODE` and `ERRINFO` are 0 whenever `STATUS.ERR = 0` (R34, R35). -/
  noErrorNoRecord : s.seq ≠ .failed → s.errcode = 0 ∧ s.errinfo = 0
  /-- In the failed state they record one error of the hardware (R187, R193). -/
  errorRecorded : s.seq = .failed → errorRecordLegal s.errcode.toNat s.errinfo.toNat = true

/-- The host performs no transaction while a command executes but reads of `STATUS` (R213). -/
def State.hostPolls (s : State) : Prop :=
  ∀ e ∈ s.script, e.inWindow = true → e.access = .regRead statusNumber

end Sys2Proof.Machine
end

