-- ==== Sys2Proof/Certificates/Slice0/Obligations.lean ====
section
/-! DEFINITION. The statements for the provers. Each docstring names the rules of spec/ that a statement formalises. -/

namespace Sys2Proof.Claims

open Sys2Proof.Machine

/-- The region is inside memory (R65). -/
def insideMemory (r : Region) : Prop := r.base.toNat + r.len.toNat ≤ Config.memSize

/-- The regions overlap (R65). -/
def overlap (a b : Region) : Prop :=
  0 < a.len.toNat ∧ 0 < b.len.toNat ∧ a.base.toNat < b.base.toNat + b.len.toNat ∧ b.base.toNat < a.base.toNat + a.len.toNat

/-- An address of the first `n` bytes from `base` on. -/
def within (base n a : Nat) : Prop := base ≤ a ∧ a < base + n

/-- The machine accepts a command (R87): idle or done. -/
def accepting (s : State) : Prop := s.seq = .idle ∨ s.seq = .done

/-- The errors a command can raise in a state, by code and information value: the last column of R180 with R187 and R189. The slots
needed are `ceil(8 × DAT_LEN / k)`, saturated, for `PACK k` and `ceil(BITCNT / k)` for `UNPACK k`. -/
def mayRaise (i : Instr) (s : State) (code info : Nat) : Prop :=
  match i with
  | .nop | .clrerr | .srst => False
  | .modexp | .decrypt => code = 7 ∧ info = 8
  | .encrypt => (code = 7 ∧ info = 8) ∨ (code = 3 ∧ info = 0)
  | .keygen _ => (code = 7 ∧ info = 2) ∨ (code = 2 ∧ info ∈ [1, 2, 3])
  | .ldint => code = 7 ∧ info ∈ [4, 6]
  | .stint => code = 7 ∧ info ∈ [4, 6, 7]
  | .primegen _ => (code = 7 ∧ info = 2) ∨ (code = 2 ∧ info = 1)
  | .ptest => code = 7 ∧ info = 10
  | .pack k => (code = 7 ∧ info ∈ [1, 3, 4, 5]) ∨
      (code = 1 ∧ info = min ((8 * s.dat.len.toNat + k - 1) / k) (2 ^ 32 - 1))
  | .unpack k => (code = 7 ∧ info ∈ [1, 3, 4, 5, 9]) ∨ (code = 5 ∧ info = (s.bitcnt.toNat + k - 1) / k)
  | .fits _ => code = 7 ∧ info = 1

/-- The opcodes of the fourteen commands, format Z first (R85). -/
def zOpcodes : List Nat := [0x00, 0x01, 0x02, 0x10, 0x20, 0x21, 0x23, 0x24, 0x31]

/-- The opcodes of formats K and B (R85). -/
def immOpcodes : List Nat := [0x22, 0x30, 0x40, 0x41, 0x42]

/-- The `W`-bit registers (R41). -/
def wideRegs : List RegNum := [0x00, 0x01, 0x02, 0x03, 0x04, 0x05, 0x06, 0x07, 0x08, 0x09]

/-- The 32-bit registers that the host may write (R41). -/
def narrowRegs : List RegNum := [0x14, 0x16, 0x17, 0x18, 0x19, 0x1A, 0x1B]

end Sys2Proof.Claims

open Sys2Proof Sys2Proof.Machine Sys2Proof.Claims

/-! ### Encoding -/

/-- Every well-formed instruction is read back from its word, with its immediate at every value of the field (R81 to R83, R85). -/
def Obligations.DecodeOfEncodeIsTheInstruction : Prop :=
  ∀ i : Instr, i.wf = true → decode (encode i) = .instr i

/-- R85: the word `w` is a command exactly when `w & mask = match`, row by row, and the immediate is `w[15:8]` (R84). -/
def Obligations.WordIsTheCommandItsRowMatches : Prop :=
  ∀ w : Word32,
    (decode w = .instr .nop ↔ w &&& 0xFFFFFFFF#32 = 0x00000000#32) ∧
    (decode w = .instr .clrerr ↔ w &&& 0xFFFFFFFF#32 = 0x00000001#32) ∧
    (decode w = .instr .srst ↔ w &&& 0xFFFFFFFF#32 = 0x00000002#32) ∧
    (decode w = .instr .modexp ↔ w &&& 0xFFFFFFFF#32 = 0x00000010#32) ∧
    (decode w = .instr .encrypt ↔ w &&& 0xFFFFFFFF#32 = 0x00000020#32) ∧
    (decode w = .instr .decrypt ↔ w &&& 0xFFFFFFFF#32 = 0x00000021#32) ∧
    (decode w = .instr .ldint ↔ w &&& 0xFFFFFFFF#32 = 0x00000023#32) ∧
    (decode w = .instr .stint ↔ w &&& 0xFFFFFFFF#32 = 0x00000024#32) ∧
    (decode w = .instr .ptest ↔ w &&& 0xFFFFFFFF#32 = 0x00000031#32) ∧
    ∀ imm : Nat,
      (decode w = .instr (.keygen imm) ↔ w &&& 0xFFFF00FF#32 = 0x00000022#32 ∧ imm = w.toNat / 256 % 256) ∧
      (decode w = .instr (.primegen imm) ↔ w &&& 0xFFFF00FF#32 = 0x00000030#32 ∧ imm = w.toNat / 256 % 256) ∧
      (decode w = .instr (.pack imm) ↔ w &&& 0xFFFF00FF#32 = 0x00000040#32 ∧ imm = w.toNat / 256 % 256) ∧
      (decode w = .instr (.unpack imm) ↔ w &&& 0xFFFF00FF#32 = 0x00000041#32 ∧ imm = w.toNat / 256 % 256) ∧
      (decode w = .instr (.fits imm) ↔ w &&& 0xFFFF00FF#32 = 0x00000042#32 ∧ imm = w.toNat / 256 % 256)

/-- R86: which words are illegal, that all but `9 + 5 × 256` are, and that an illegal word accepted for execution raises
`IllegalCommand` with the word in `ERRINFO` and has no other effect (R186). -/
def Obligations.IllegalWordsRaiseIllegalCommand : Prop :=
  (∀ w : Word32, (∃ why, decode w = .illegal why) ↔
    (w.toNat / 65536 ≠ 0 ∨ w.toNat % 256 ∉ zOpcodes ++ immOpcodes ∨ (w.toNat % 256 ∈ zOpcodes ∧ w.toNat / 256 % 256 ≠ 0))) ∧
  Set.ncard {w : Word32 | ∃ i, decode w = .instr i} = 9 + 5 * 256 ∧
  ∀ (s : State) (e : HostEvent) (rest : List HostEvent) (v : Word) (why : IllegalWord),
    s.script = e :: rest → noWindow rest → accepting s → e.access = .regWrite 0x10 v →
    decode (v.setWidth 32) = .illegal why → step s = .next ((s.popped rest).failedWith 6 (v.toNat % 2 ^ 32))

/-- R92: the worked encodings, both ways, the illegal words, and the legal `PACK` word whose `k` is out of range. -/
def Obligations.WorkedEncodings : Prop :=
  decode 0x00000010#32 = .instr .modexp ∧ decode 0x00000340#32 = .instr (.pack 3) ∧
  decode 0x00000141#32 = .instr (.unpack 1) ∧ decode 0x00000442#32 = .instr (.fits 4) ∧
  decode 0x00001022#32 = .instr (.keygen 16) ∧ decode 0x00002030#32 = .instr (.primegen 32) ∧
  encode .modexp = 0x00000010#32 ∧ encode (.pack 3) = 0x00000340#32 ∧ encode (.unpack 1) = 0x00000141#32 ∧
  encode (.fits 4) = 0x00000442#32 ∧ encode (.keygen 16) = 0x00001022#32 ∧ encode (.primegen 32) = 0x00002030#32 ∧
  decode 0x00010010#32 = .illegal .zeroField ∧ decode 0x00000110#32 = .illegal .immediate ∧
  decode 0x00000003#32 = .illegal .opcode ∧ decode 0x00000540#32 = .instr (.pack 5) ∧
  ∀ s : State, exec (.pack 5) s = .next (s.failedWith 7 1)

/-! ### Acceptance, the busy window, the ports -/

/-- A step runs the decoded command: the word written to `CMD` in idle or done, after the window's transactions (R87, R215; the script
and the window are the model's form of the host, log entries 1 and 2). -/
def Obligations.StepRunsTheDecodedCommand : Prop :=
  ∀ (s : State) (e : HostEvent) (rest : List HostEvent) (v : Word) (i : Instr),
    s.script = e :: rest → accepting s → e.access = .regWrite 0x10 v → decode (v.setWidth 32) = .instr i →
    step s = exec i (runWindow (rest.takeWhile (fun x => x.inWindow))
      { s with script := rest.dropWhile (fun x => x.inWindow), responses := [], seq := .busy })

/-- R87: acceptance and decode, for a host that polls, and how an execution ends. -/
def Obligations.CommandAcceptance : Prop :=
  (∀ (s : State) (e : HostEvent) (rest : List HostEvent) (v : Word),
    s.script = e :: rest → noWindow rest → e.access = .regWrite 0x10 v →
    (s.seq = .busy → step s = .next (s.popped rest)) ∧
    (s.seq = .failed →
      (v.setWidth 32 = 0x00000001#32 → step s = exec .clrerr (s.popped rest)) ∧
      (v.setWidth 32 = 0x00000002#32 → step s = exec .srst (s.popped rest)) ∧
      (v.setWidth 32 ≠ 0x00000001#32 → v.setWidth 32 ≠ 0x00000002#32 → step s = .next (s.popped rest))) ∧
    (accepting s →
      (∀ i, decode (v.setWidth 32) = .instr i → step s = exec i { s.popped rest with seq := .busy }) ∧
      (∀ why, decode (v.setWidth 32) = .illegal why →
        step s = .next ((s.popped rest).failedWith 6 (v.toNat % 2 ^ 32))))) ∧
  ∀ (i : Instr) (s t : State), exec i s = .next t →
    (i = .srst ∧ t.seq = .idle) ∨ (i ≠ .srst ∧ (t.seq = .done ∨ t.seq = .failed))

/-- R194: in failed every command word but `CLRERR` and `SRST` is dropped, and the other transactions work normally. -/
def Obligations.FailedDropsCommandsAndServesPorts : Prop :=
  ∀ (s : State) (e : HostEvent) (rest : List HostEvent), s.script = e :: rest → s.seq = .failed →
    (∀ v, e.access = .regWrite 0x10 v → v.toNat % 2 ^ 32 ≠ 1 → v.toNat % 2 ^ 32 ≠ 2 → step s = .next (s.popped rest)) ∧
    (∀ r, e.access = .regRead r → step s = .next { s.popped rest with responses := [.word (readRegNum r s)] }) ∧
    (∀ r v, r ≠ 0x10 → e.access = .regWrite r v → step s = .next (writeRegNum r v (s.popped rest))) ∧
    (∀ a, e.access = .memRead a → step s = .next { s.popped rest with responses := [.byte (s.mem.read a.toNat)] }) ∧
    (∀ a b, e.access = .memWrite a b → step s = .next { s.popped rest with mem := s.mem.write a.toNat b })

/-- R214: transactions while `BUSY = 1`: a read of `STATUS` gives 1 plus the old `FLAG` times 8, another read gives some value, a
write is dropped, and none of them disturbs the command: with any window the step ends as without it, but for what the host has
read and for how many free values it has taken (model's own fields, log entries 3 and 8). -/
def Obligations.BusyWindowDisturbsNothing : Prop :=
  ∀ (s : State) (e : HostEvent) (rest : List HostEvent) (v : Word),
    accepting s → e.access = .regWrite 0x10 v → noWindow rest →
    (∀ window : List HostEvent, (∀ x ∈ window, x.inWindow = true) →
      ∃ t u, step { s with script := e :: (window ++ rest) } = .next t ∧ step { s with script := e :: rest } = .next u ∧
        { t with responses := u.responses, freeIndex := u.freeIndex } = u) ∧
    (∀ a : Access, ∃ t, step { s with script := e :: { access := a, inWindow := true } :: rest } = .next t ∧
      (a = .regRead 0x11 → t.responses = [.word (BitVec.ofNat 64 (1 + 8 * s.flag.toNat))]) ∧
      (∀ r, a = .regRead r → ∃ x, t.responses = [.word x]) ∧
      (∀ b, a = .memRead b → ∃ x, t.responses = [.byte x]) ∧
      (∀ r x, a = .regWrite r x → t.responses = []) ∧
      (∀ b x, a = .memWrite b x → t.responses = []))

/-- A host that polls never takes an unspecified value (R213, R215), and keeps polling; `freeIndex` is the model's own count of the
free values taken (log entry 3). -/
def Obligations.PollingHostTakesNoFreeValue : Prop :=
  ∀ s t : State, s.seq ≠ .busy → s.hostPolls → step s = .next t → t.freeIndex = s.freeIndex ∧ t.hostPolls

/-- The transactions on the two ports when no command executes (R40, R61, R63): what they return and what they change. The
returned values stand in the model's own field `responses` (log entry 8). -/
def Obligations.PortTransactionsWhenNotBusy : Prop :=
  ∀ (s : State) (e : HostEvent) (rest : List HostEvent), s.script = e :: rest → s.seq ≠ .busy →
    (∀ r, e.access = .regRead r → step s = .next { s.popped rest with responses := [.word (readRegNum r s)] }) ∧
    (∀ r v, r ≠ 0x10 → e.access = .regWrite r v → step s = .next (writeRegNum r v (s.popped rest))) ∧
    (∀ a, e.access = .memRead a → ∃ b, step s = .next { s.popped rest with responses := [.byte b] } ∧
      (a.toNat < Config.memSize → b = s.mem.read a.toNat) ∧ (Config.memSize ≤ a.toNat → b = 0)) ∧
    (∀ a v, e.access = .memWrite a v → ∃ m, step s = .next { s.popped rest with mem := m } ∧
      (a.toNat < Config.memSize → m.read a.toNat = v) ∧ (Config.memSize ≤ a.toNat → m = s.mem) ∧
      ∀ b, b ≠ a.toNat → m.read b = s.mem.read b)

/-- The register map (R41): the field that each register number reads. R42, R43: what a register reads as after a host write of it, that the write changes no other register and nothing else, and that
unimplemented registers read 0 and ignore writes; `STATUS`, `ERRCODE`, `ERRINFO` ignore a write (R31, R34, R35), `CMD` reads 0 (R33). What `STATUS` reads is `StatusFields`. -/
def Obligations.RegisterWriteThenRead : Prop :=
  ∀ (s : State) (r : RegNum) (v : Word),
    (readRegNum 0x00 s = s.opa ∧ readRegNum 0x01 s = s.opb ∧ readRegNum 0x02 s = s.opc ∧ readRegNum 0x03 s = s.res ∧
      readRegNum 0x04 s = s.keys.n ∧ readRegNum 0x05 s = s.keys.e ∧ readRegNum 0x06 s = s.keys.d ∧
      readRegNum 0x07 s = s.keys.p ∧ readRegNum 0x08 s = s.keys.q ∧ readRegNum 0x09 s = s.keys.phi ∧
      (readRegNum 0x12 s).toNat = s.errcode.toNat ∧ (readRegNum 0x13 s).toNat = s.errinfo.toNat ∧
      (readRegNum 0x14 s).toNat = s.prng.toNat ∧
      (readRegNum 0x16 s).toNat = s.buf.base.toNat ∧ (readRegNum 0x17 s).toNat = s.buf.len.toNat ∧
      (readRegNum 0x18 s).toNat = s.dat.base.toNat ∧ (readRegNum 0x19 s).toNat = s.dat.len.toNat ∧
      (readRegNum 0x1A s).toNat = s.bitcnt.toNat ∧ (readRegNum 0x1B s).toNat = s.hdrbits.toNat) ∧
    (r ∈ wideRegs → readRegNum r (writeRegNum r v s) = v) ∧
    (r ∈ narrowRegs → (readRegNum r (writeRegNum r v s)).toNat = v.toNat % 2 ^ 32) ∧
    (r ∉ wideRegs ++ narrowRegs → writeRegNum r v s = s) ∧
    (r ∉ wideRegs ++ narrowRegs → r ∉ [0x11, 0x12, 0x13] → readRegNum r s = 0) ∧
    (∀ r', r' ≠ r → readRegNum r' (writeRegNum r v s) = readRegNum r' s) ∧
    (writeRegNum r v s).seq = s.seq ∧ (writeRegNum r v s).mem = s.mem ∧ (writeRegNum r v s).script = s.script ∧
    (writeRegNum r v s).responses = s.responses ∧ (writeRegNum r v s).freeIndex = s.freeIndex

/-- `STATUS` reads as R30's table and R31's fields say: `BUSY`, `DONE`, `ERR` from the sequencer state, `FLAG` in bit 3, 0 above. -/
def Obligations.StatusFields : Prop :=
  ∀ s : State,
    (readRegNum 0x11 s).toNat =
      (match s.seq with | .idle => 0 | .busy => 1 | .done => 2 | .failed => 4) + (if s.flag then 8 else 0)

/-! ### Reset and the system commands -/

/-- R47: the reset values of every register after power-on and after `SRST`, which keeps the memory; after power-on a byte of memory
has the free value of its address, about which nothing is known (R62, log entry 4). -/
def Obligations.ResetValues : Prop :=
  (∀ r : RegNum, readRegNum r State.reset = if r = 0x14 then 0x00000001#64 else 0#64) ∧ State.reset.seq = .idle ∧
  State.reset.flag = false ∧ (∀ a < Config.memSize, State.reset.mem.read a = Config.powerOnByte a) ∧
  ∀ s : State, ∃ t, exec .srst s = .next t ∧ (∀ r, readRegNum r t = readRegNum r State.reset) ∧ t.seq = .idle ∧
    t.flag = false ∧ ∀ a, t.mem.read a = s.mem.read a

/-- R172: `SRST`, its encoding, its effect on the whole state (the model's own fields stay, log entry 17), and that it is accepted in
the failed state too. -/
def Obligations.SrstResetsEveryRegister : Prop :=
  decode 0x00000002#32 = .instr .srst ∧
  (∀ s : State, exec .srst s =
    .next { State.reset with mem := s.mem, script := s.script, responses := s.responses, freeIndex := s.freeIndex }) ∧
  ∀ (s : State) (e : HostEvent) (rest : List HostEvent) (v : Word),
    s.script = e :: rest → noWindow rest → s.seq ≠ .busy → e.access = .regWrite 0x10 v → v.toNat % 2 ^ 32 = 2 →
    step s = .next { State.reset with mem := s.mem, script := rest, responses := [], freeIndex := s.freeIndex }

/-- R171: `CLRERR`, its encoding, its effect, and that it is accepted in idle, done and failed. -/
def Obligations.ClrerrAcknowledgesTheError : Prop :=
  decode 0x00000001#32 = .instr .clrerr ∧
  (∀ s : State, exec .clrerr s = .next { s with seq := .done, errcode := 0, errinfo := 0 }) ∧
  ∀ (s : State) (e : HostEvent) (rest : List HostEvent) (v : Word),
    s.script = e :: rest → noWindow rest → s.seq ≠ .busy → e.access = .regWrite 0x10 v → v.toNat % 2 ^ 32 = 1 →
    step s = .next { s.popped rest with seq := .done, errcode := 0, errinfo := 0 }

/-- R170: `NOP`, its encoding, its effect, and that it is dropped in the failed state. -/
def Obligations.NopOnlySetsDone : Prop :=
  decode 0x00000000#32 = .instr .nop ∧ (∀ s : State, exec .nop s = .next { s with seq := .done }) ∧
  ∀ (s : State) (e : HostEvent) (rest : List HostEvent) (v : Word),
    s.script = e :: rest → noWindow rest → e.access = .regWrite 0x10 v → v.toNat % 2 ^ 32 = 0 →
    (accepting s → step s = .next { s.popped rest with seq := .done }) ∧
    (s.seq = .failed → step s = .next (s.popped rest))

/-- What the commands do in the reset state (R212). -/
def Obligations.CommandsFromTheResetState : Prop :=
  (∀ i ∈ [Instr.nop, .clrerr, .ptest, .ldint, .stint, .pack 1, .pack 2, .pack 3, .pack 4, .unpack 1, .unpack 2, .unpack 3, .unpack 4],
    exec i State.reset = .next { State.reset with seq := .done }) ∧
  exec .srst State.reset = .next State.reset ∧
  (∀ k ∈ [1, 2, 3, 4], exec (.fits k) State.reset = .next { State.reset with seq := .done, flag := true }) ∧
  ∀ i ∈ [Instr.modexp, .encrypt, .decrypt], exec i State.reset = .next (State.reset.failedWith 7 8)

/-! ### Errors -/

/-- R188, R190, R187: the two endings of a command, and the code and information of every cause. -/
def Obligations.EndingsOfACommand : Prop :=
  ∀ s : State,
    finish s = { s with seq := .done } ∧ (readRegNum 0x11 (finish s)).toNat = 2 + 8 * s.flag.toNat ∧
    (∀ n, raiseError (.capacity n) s = s.failedWith 1 (min n (2 ^ 32 - 1))) ∧
    (∀ n, raiseError (.keyGeneration n) s = s.failedWith 2 n) ∧
    raiseError .messageTooLarge s = s.failedWith 3 0 ∧
    (∀ n, raiseError (.frameCorruption n) s = s.failedWith 5 n) ∧
    (∀ w, raiseError (.illegalCommand w) s = s.failedWith 6 w.toNat) ∧
    (∀ n, raiseError (.illegalOperand n) s = s.failedWith 7 n) ∧
    ∀ c n, (readRegNum 0x11 (s.failedWith c n)).toNat = 4 + 8 * s.flag.toNat

/-- R192: a command that ends in an error has changed nothing but the error registers, apart from `PRNG` (`PRIMEGEN`, `KEYGEN`) and the
cleared key registers of a `KeyGenerationError` of `KEYGEN`; an `IllegalOperand(2)` has changed neither. -/
def Obligations.FailedCommandsAreAllOrNothing : Prop :=
  ∀ (i : Instr) (s t : State), exec i s = .next t → t.seq = .failed →
    t = { s with seq := .failed, errcode := t.errcode, errinfo := t.errinfo, prng := t.prng, keys := t.keys } ∧
    ((∀ b, i ≠ .keygen b) → (∀ b, i ≠ .primegen b) → t.prng = s.prng) ∧
    ((∀ b, i ≠ .keygen b) → t.keys = s.keys) ∧
    (∀ b, i = .keygen b → (t.errcode = 7 ∧ t.keys = s.keys ∧ t.prng = s.prng) ∨ (t.errcode = 2 ∧ t.keys = KeyRegs.zero)) ∧
    (∀ b, i = .primegen b → t.errcode = 7 → t.prng = s.prng)

/-- R180 with R187 and R189: which command can raise which error with which information value, the slots needed computed from the
state the command executes in. -/
def Obligations.EachCommandRaisesItsOwnErrors : Prop :=
  ∀ (i : Instr) (s t : State), exec i s = .next t → t.seq = .failed → mayRaise i s t.errcode.toNat t.errinfo.toNat

/-! ### Frames -/

/-- Which registers a command can change: the "written by" of R21 to R39, R44, R45 and R31; and that only `PACK`, `UNPACK` and `STINT`
change a byte of memory (R60). Every register, flag and byte not named keeps its value, whether the command succeeds or fails. -/
def Obligations.CommandsWriteOnlyTheirRegisters : Prop :=
  ∀ (i : Instr) (s t : State), exec i s = .next t → i ≠ .srst →
    t.opb = s.opb ∧ t.opc = s.opc ∧ t.buf = s.buf ∧ t.dat = s.dat ∧ t.bitcnt = s.bitcnt ∧ t.hdrbits = s.hdrbits ∧
    t.script = s.script ∧ t.responses = s.responses ∧ t.freeIndex = s.freeIndex ∧
    (i ≠ .ldint → t.opa = s.opa) ∧
    (i ≠ .modexp → i ≠ .encrypt → i ≠ .decrypt → (∀ b, i ≠ .primegen b) → t.res = s.res) ∧
    ((∀ b, i ≠ .keygen b) → t.keys = s.keys) ∧
    ((∀ b, i ≠ .keygen b) → (∀ b, i ≠ .primegen b) → t.prng = s.prng) ∧
    (i ≠ .ptest → (∀ k, i ≠ .fits k) → t.flag = s.flag) ∧
    (t.seq = .done → i ≠ .clrerr → t.errcode = s.errcode ∧ t.errinfo = s.errinfo) ∧
    ((∀ k, i ≠ .pack k) → (∀ k, i ≠ .unpack k) → i ≠ .stint → ∀ a, t.mem.read a = s.mem.read a)

/-- A command changes no byte outside the region it may write: `PACK` outside `BUF`, `UNPACK` and `STINT` outside `DAT` (R64, R65, R103,
R105, R141), nor a byte that no storage backs (R61). -/
def Obligations.StoresStayInTheirRegion : Prop :=
  ∀ (i : Instr) (s t : State) (a : Nat), exec i s = .next t →
    ((∃ k, i = .pack k) → ¬within s.buf.base.toNat s.buf.len.toNat a → t.mem.read a = s.mem.read a) ∧
    ((∃ k, i = .unpack k) ∨ i = .stint → ¬within s.dat.base.toNat s.dat.len.toNat a → t.mem.read a = s.mem.read a) ∧
    (Config.memSize ≤ a → t.mem.lookup a = s.mem.lookup a)

/-! ### Modular exponentiation and RSA -/

/-- R123: the value of `modexp` and its consequences. -/
def Obligations.ModexpIsThePowerResidue : Prop :=
  ∀ b e n : Nat, 1 ≤ n →
    modexp b e n = b ^ e % n ∧ modexp b e n < n ∧ modexp b e 1 = 0 ∧ (2 ≤ n → modexp b 0 n = 1) ∧
    (1 ≤ e → modexp 0 e n = 0) ∧ modexp b 1 n = b % n ∧ modexp b e n = modexp (b % n) e n

/-- R121: `MODEXP`, its encoding, its error and its result; nothing else changes. -/
def Obligations.ModexpCommand : Prop :=
  decode 0x00000010#32 = .instr .modexp ∧
  ∀ s : State,
    (s.opc.toNat = 0 → exec .modexp s = .next (s.failedWith 7 8)) ∧
    (s.opc.toNat ≠ 0 → ∃ v : Word, v.toNat = s.opa.toNat ^ s.opb.toNat % s.opc.toNat ∧
      exec .modexp s = .next { s with res := v, seq := .done })

/-- R131: `ENCRYPT`, its encoding, its errors in their order and its result; nothing else changes. -/
def Obligations.EncryptCommand : Prop :=
  decode 0x00000020#32 = .instr .encrypt ∧
  ∀ s : State,
    (s.keys.n.toNat = 0 → exec .encrypt s = .next (s.failedWith 7 8)) ∧
    (s.keys.n.toNat ≠ 0 → s.keys.n.toNat ≤ s.opa.toNat → exec .encrypt s = .next (s.failedWith 3 0)) ∧
    (s.opa.toNat < s.keys.n.toNat → ∃ v : Word, v.toNat = s.opa.toNat ^ s.keys.e.toNat % s.keys.n.toNat ∧
      exec .encrypt s = .next { s with res := v, seq := .done })

/-- R132: `DECRYPT`, its encoding, its error and its result, also for a cipher integer not below `n`; nothing else changes. -/
def Obligations.DecryptCommand : Prop :=
  decode 0x00000021#32 = .instr .decrypt ∧
  ∀ s : State,
    (s.keys.n.toNat = 0 → exec .decrypt s = .next (s.failedWith 7 8)) ∧
    (s.keys.n.toNat ≠ 0 → ∃ v : Word, v.toNat = s.opa.toNat ^ s.keys.d.toNat % s.keys.n.toNat ∧
      v.toNat = (s.opa.toNat % s.keys.n.toNat) ^ s.keys.d.toNat % s.keys.n.toNat ∧
      exec .decrypt s = .next { s with res := v, seq := .done })

/-- R133: the RSA round-trip law, for the key of a successful `KEYGEN` and for any `n = p × q` with `p ≠ q` prime and
`e × d ≡ 1 (mod (p-1)(q-1))`. -/
def Obligations.RsaRoundTrip : Prop :=
  (∀ (s : State) (p q : Nat), p.Prime → q.Prime → p ≠ q → s.keys.n.toNat = p * q →
    s.keys.e.toNat * s.keys.d.toNat ≡ 1 [MOD (p - 1) * (q - 1)] → s.opa.toNat < s.keys.n.toNat →
    ∃ t u, exec .encrypt s = .next t ∧ t.seq = .done ∧ exec .decrypt { t with opa := t.res } = .next u ∧ u.seq = .done ∧
      u.res = s.opa) ∧
  ∀ (b : Nat) (s k : State) (m : Word), exec (.keygen b) s = .next k → k.seq = .done → m.toNat < k.keys.n.toNat →
    ∃ t u, exec .encrypt { k with opa := m } = .next t ∧ t.seq = .done ∧
      exec .decrypt { t with opa := t.res } = .next u ∧ u.seq = .done ∧ u.res = m

/-- R135: `choose_e(phi)`: the first of at most `E_TRIES_MAX = 64` candidates `start, start + 2, ...` below `phi` that is coprime to
`phi`; none if there is none. -/
def Obligations.PublicExponentChoice : Prop :=
  ∀ phi : Nat, ∀ start, start = (if 65537 < phi then 65537 else 3) →
    (∀ e, chooseE phi = some e ↔
      ∃ t < 64, e = start + 2 * t ∧ e < phi ∧ Nat.Coprime e phi ∧ ∀ u < t, ¬Nat.Coprime (start + 2 * u) phi) ∧
    (chooseE phi = none ↔ ∀ t < 64, start + 2 * t < phi → ¬Nat.Coprime (start + 2 * t) phi)

/-- With the default parameters the search for the public exponent always succeeds: for every even `phi` from 4 on that fits `W` bits.
(The spec keeps the branch and does not claim this: spec/93_implementation_defined.md U3.) -/
def Obligations.PublicExponentIsAlwaysFound : Prop :=
  (∀ phi : Nat, phi % 2 = 0 → 4 ≤ phi → phi < 2 ^ 64 → ∃ e, chooseE phi = some e) ∧
  ∀ (b : Nat) (s t : State), exec (.keygen b) s = .next t → t.seq = .failed → ¬(t.errcode.toNat = 2 ∧ t.errinfo.toNat = 3)

/-- R136: `modinv(e, phi)` is the unique inverse in `(0, phi)`. -/
def Obligations.PrivateExponentIsTheInverse : Prop :=
  ∀ e phi : Nat, 0 < e → e < phi → Nat.gcd e phi = 1 →
    0 < modinv e phi ∧ modinv e phi < phi ∧ e * modinv e phi % phi = 1 ∧
    ∀ d, 0 < d → d < phi → e * d % phi = 1 → d = modinv e phi

/-- R134: `KEYGEN B`: its encoding, the size check, the failing stages with the key registers cleared and `PRNG` advanced, and the key
it leaves when both searches succeed; nothing else changes. (The arm of stage 3 is the rule's own; `PublicExponentIsAlwaysFound` says
that with this hardware's parameters no state reaches it.) -/
def Obligations.KeygenCommand : Prop :=
  (∀ b < 256, decode (BitVec.ofNat 32 (0x22 + 256 * b)) = .instr (.keygen b)) ∧
  ∀ (b : Nat) (s : State),
    (¬(2 ≤ b ∧ b ≤ 32) → exec (.keygen b) s = .next (s.failedWith 7 2)) ∧
    (2 ≤ b → b ≤ 32 →
      (∀ g, primeSearch b 0 1024 s.prng = (none, g) →
        exec (.keygen b) s = .next ({ s with keys := KeyRegs.zero, prng := g }.failedWith 2 1)) ∧
      (∀ p g g', primeSearch b 0 1024 s.prng = (some p, g) → primeSearch b p 1024 g = (none, g') →
        exec (.keygen b) s = .next ({ s with keys := KeyRegs.zero, prng := g' }.failedWith 2 2)) ∧
      (∀ p g q g', primeSearch b 0 1024 s.prng = (some p, g) → primeSearch b p 1024 g = (some q, g') →
        match chooseE ((p - 1) * (q - 1)) with
        | none => exec (.keygen b) s = .next ({ s with keys := KeyRegs.zero, prng := g' }.failedWith 2 3)
        | some e => ∃ k : KeyRegs, exec (.keygen b) s = .next { s with keys := k, prng := g', seq := .done } ∧
          k.p.toNat = p ∧ k.q.toNat = q ∧ k.n.toNat = p * q ∧ k.phi.toNat = (p - 1) * (q - 1) ∧ k.e.toNat = e ∧
          k.d.toNat = modinv e ((p - 1) * (q - 1))))

/-- R142: what a successful `KEYGEN` guarantees. -/
def Obligations.KeygenGuarantee : Prop :=
  ∀ (b : Nat) (s t : State), exec (.keygen b) s = .next t → t.seq = .done →
    ∀ p q n phi e d, p = t.keys.p.toNat → q = t.keys.q.toNat → n = t.keys.n.toNat → phi = t.keys.phi.toNat →
      e = t.keys.e.toNat → d = t.keys.d.toNat →
      p.Prime ∧ q.Prime ∧ p ≠ q ∧ p % 2 = 1 ∧ q % 2 = 1 ∧ 2 ^ (b - 1) ≤ p ∧ p < 2 ^ b ∧ 2 ^ (b - 1) ≤ q ∧ q < 2 ^ b ∧
      n = p * q ∧ phi = (p - 1) * (q - 1) ∧ 0 < e ∧ e < phi ∧ 0 < d ∧ d < phi ∧ Nat.gcd e phi = 1 ∧ e * d % phi = 1 ∧
      2 ^ (2 * b - 2) < n ∧ n < 2 ^ (2 * b)

/-- A payload of `L` bytes with `8 × L ≤ 2B - 2` passes the range check of `ENCRYPT` under a key of `KEYGEN B`, whatever its content
(R138). -/
def Obligations.SizedPayloadIsEncrypted : Prop :=
  ∀ (b : Nat) (s k u : State), exec (.keygen b) s = .next k → k.seq = .done → u.keys = k.keys → insideMemory u.dat →
    8 * u.dat.len.toNat ≤ 2 * b - 2 →
    ∃ v w, exec .ldint u = .next v ∧ v.seq = .done ∧ exec .encrypt v = .next w ∧ w.seq = .done

/-! ### Bytes and integers -/

/-- R140: `LDINT`, its encoding, its errors in their order and its result, big-endian (R139); nothing else changes. -/
def Obligations.LdintCommand : Prop :=
  decode 0x00000023#32 = .instr .ldint ∧
  ∀ s : State,
    (¬insideMemory s.dat → exec .ldint s = .next (s.failedWith 7 4)) ∧
    (insideMemory s.dat → 8 < s.dat.len.toNat → exec .ldint s = .next (s.failedWith 7 6)) ∧
    (insideMemory s.dat → s.dat.len.toNat ≤ 8 → ∃ v : Word,
      v.toNat = ∑ i ∈ Finset.range s.dat.len.toNat,
        (s.mem.read (s.dat.base.toNat + i)).toNat * 256 ^ (s.dat.len.toNat - 1 - i) ∧
      exec .ldint s = .next { s with opa := v, seq := .done })

/-- R141: `STINT`, its encoding, its errors in their order, the bytes it stores, and that every other byte and register keeps its
value. -/
def Obligations.StintCommand : Prop :=
  decode 0x00000024#32 = .instr .stint ∧
  ∀ s : State,
    (¬insideMemory s.dat → exec .stint s = .next (s.failedWith 7 4)) ∧
    (insideMemory s.dat → 8 < s.dat.len.toNat → exec .stint s = .next (s.failedWith 7 6)) ∧
    (insideMemory s.dat → s.dat.len.toNat ≤ 8 → 256 ^ s.dat.len.toNat ≤ s.res.toNat →
      exec .stint s = .next (s.failedWith 7 7)) ∧
    (insideMemory s.dat → s.dat.len.toNat ≤ 8 → s.res.toNat < 256 ^ s.dat.len.toNat → ∃ m : Memory,
      exec .stint s = .next { s with mem := m, seq := .done } ∧
      (∀ i < s.dat.len.toNat,
        (m.read (s.dat.base.toNat + i)).toNat = s.res.toNat / 256 ^ (s.dat.len.toNat - 1 - i) % 256) ∧
      ∀ a, ¬within s.dat.base.toNat s.dat.len.toNat a → m.read a = s.mem.read a)

/-- R139: the two conversions are inverse to each other for a fixed length, through the commands: `STINT` then `LDINT` brings the
integer back, and `LDINT` then `STINT` of the integer read leaves every byte as it was. -/
def Obligations.IntegerAndBytesAreInverse : Prop :=
  ∀ s : State, insideMemory s.dat → s.dat.len.toNat ≤ 8 →
    (s.res.toNat < 256 ^ s.dat.len.toNat →
      ∃ t u, exec .stint s = .next t ∧ t.seq = .done ∧ exec .ldint t = .next u ∧ u.seq = .done ∧ u.opa = s.res) ∧
    ∃ t u, exec .ldint s = .next t ∧ t.seq = .done ∧ exec .stint { t with res := t.opa } = .next u ∧ u.seq = .done ∧
      ∀ a, u.mem.read a = s.mem.read a

/-! ### Primes -/

/-- R150: a draw, in natural numbers with its two truncations, and the first six draws from the reset value. -/
def Obligations.DrawIsTheXorshiftStep : Prop :=
  (∀ s : Word32, ∀ a b, a = s.toNat ^^^ (s.toNat * 2 ^ 13 % 2 ^ 32) → b = a ^^^ (a / 2 ^ 17) →
    (draw s).toNat = b ^^^ (b * 2 ^ 5 % 2 ^ 32)) ∧
  [1, 2, 3, 4, 5, 6].map (fun n => draw^[n] 0x00000001#32) =
    [0x00042021#32, 0x04080601#32, 0x9DCCA8C5#32, 0x1255994F#32, 0x8EF917D1#32, 0x2C6F5BD0#32]

/-- R151: a candidate is odd, has exactly `B` bits, takes the bits between from the draw, and the two commands reject a `B` outside
`[2, PW]` before any draw. -/
def Obligations.CandidateFormation : Prop :=
  (∀ r b : Nat, 2 ≤ b → b ≤ 32 →
    cand r b % 2 = 1 ∧ 2 ^ (b - 1) + 1 ≤ cand r b ∧ cand r b ≤ 2 ^ b - 1 ∧
    ∀ i, 0 < i → i < b - 1 → (cand r b).testBit i = r.testBit i) ∧
  (∀ (b : Nat) (s : State), ¬(2 ≤ b ∧ b ≤ 32) →
    exec (.primegen b) s = .next (s.failedWith 7 2) ∧ exec (.keygen b) s = .next (s.failedWith 7 2)) ∧
  cand 0x00042021 4 = 9 ∧ cand 0x9DCCA8C5 4 = 13 ∧ cand 0x00042021 16 = 40993 ∧ cand 0x00042021 32 = 2147754017 ∧
  ∀ r, cand r 2 = 3

/-- R152: trial division decides primality. -/
def Obligations.TrialDivisionDecidesPrimality : Prop :=
  ∀ c : Nat, isPrime c = true ↔ 2 ≤ c ∧ ∀ d, d ∣ c → d = 1 ∨ d = c

/-- R153: the bounded search returns the first candidate that is prime and not excluded, has made one draw for each candidate, and
answers none after `n` rejected candidates; the bound of the commands is `RETRY_MAX = 1024`. -/
def Obligations.PrimeSearchIsBounded : Prop :=
  (∀ (b excl n : Nat) (s : Word32), 2 ≤ b → b ≤ 32 →
    (∃ t < n, (∀ u < t, ¬(cand (draw^[u + 1] s).toNat b ≠ excl ∧ (cand (draw^[u + 1] s).toNat b).Prime)) ∧
      cand (draw^[t + 1] s).toNat b ≠ excl ∧ (cand (draw^[t + 1] s).toNat b).Prime ∧
      primeSearch b excl n s = (some (cand (draw^[t + 1] s).toNat b), draw^[t + 1] s)) ∨
    ((∀ u < n, ¬(cand (draw^[u + 1] s).toNat b ≠ excl ∧ (cand (draw^[u + 1] s).toNat b).Prime)) ∧
      primeSearch b excl n s = (none, draw^[n] s))) ∧
  Config.retryMax = 1024

/-- R154: `PRIMEGEN B`, its encoding, the size check, the exhausted search and the prime it leaves in `RES`; nothing else changes. -/
def Obligations.PrimegenCommand : Prop :=
  (∀ b < 256, decode (BitVec.ofNat 32 (0x30 + 256 * b)) = .instr (.primegen b)) ∧
  ∀ (b : Nat) (s : State),
    (¬(2 ≤ b ∧ b ≤ 32) → exec (.primegen b) s = .next (s.failedWith 7 2)) ∧
    (2 ≤ b → b ≤ 32 →
      (∀ g, primeSearch b 0 1024 s.prng = (none, g) → exec (.primegen b) s = .next ({ s with prng := g }.failedWith 2 1)) ∧
      (∀ p g, primeSearch b 0 1024 s.prng = (some p, g) → ∃ v : Word, v.toNat = p ∧ p.Prime ∧ 2 ^ (b - 1) ≤ p ∧ p < 2 ^ b ∧
        exec (.primegen b) s = .next { s with res := v, prng := g, seq := .done }))

/-- R155: `PTEST`, its encoding, its error and its answer; nothing else changes. -/
def Obligations.PtestCommand : Prop :=
  decode 0x00000031#32 = .instr .ptest ∧
  ∀ s : State,
    (2 ^ 32 ≤ s.opa.toNat → exec .ptest s = .next (s.failedWith 7 10)) ∧
    (s.opa.toNat < 2 ^ 32 → ∃ f : Bool, (f = true ↔ s.opa.toNat.Prime) ∧
      exec .ptest s = .next { s with flag := f, seq := .done })

/-- R157: the zero state of the generator is a fixed point, what `PRIMEGEN` and `KEYGEN` answer in it, and a non-zero state never becomes
zero. -/
def Obligations.ZeroPrngOutcomes : Prop :=
  draw 0 = 0 ∧ (∀ s : Word32, s ≠ 0 → draw s ≠ 0) ∧
  ∀ (b : Nat) (s : State), 2 ≤ b → b ≤ 32 → s.prng = 0 →
    (b ∈ [2, 3, 5, 9, 17] →
      exec (.primegen b) s = .next { s with res := BitVec.ofNat 64 (2 ^ (b - 1) + 1), seq := .done } ∧
      exec (.keygen b) s = .next ({ s with keys := KeyRegs.zero }.failedWith 2 2)) ∧
    (b ∉ [2, 3, 5, 9, 17] →
      exec (.primegen b) s = .next (s.failedWith 2 1) ∧
      exec (.keygen b) s = .next ({ s with keys := KeyRegs.zero }.failedWith 2 1))

/-! ### The codec -/

/-- R112: the operand checks that `PACK` and `UNPACK` make before anything else, in their order (R65), and that `FITS` makes only the
first. -/
def Obligations.CodecOperandChecks : Prop :=
  ∀ (k : Nat) (s : State),
    (∀ i ∈ [Instr.pack k, Instr.unpack k],
      (¬(1 ≤ k ∧ k ≤ 4) → exec i s = .next (s.failedWith 7 1)) ∧
      (1 ≤ k → k ≤ 4 → ¬insideMemory s.buf → exec i s = .next (s.failedWith 7 3)) ∧
      (1 ≤ k → k ≤ 4 → insideMemory s.buf → ¬insideMemory s.dat → exec i s = .next (s.failedWith 7 4)) ∧
      (1 ≤ k → k ≤ 4 → insideMemory s.buf → insideMemory s.dat → overlap s.buf s.dat → exec i s = .next (s.failedWith 7 5))) ∧
    (¬(1 ≤ k ∧ k ≤ 4) → exec (.fits k) s = .next (s.failedWith 7 1))

/-- R103 with R102 and R104, for operands that pass the checks of R112: `PACK k` raises `CapacityError` with the slots needed,
saturated, or puts stream bit `j × k + t` into bit `k - 1 - t` of slot `j` (0 beyond the stream), keeps the bits above, and changes
no other byte and no register. -/
def Obligations.PackCommand : Prop :=
  (∀ k < 256, decode (BitVec.ofNat 32 (0x40 + 256 * k)) = .instr (.pack k)) ∧
  ∀ (k : Nat) (s : State) (slots : Nat), 1 ≤ k → k ≤ 4 → insideMemory s.buf → insideMemory s.dat → ¬overlap s.buf s.dat →
    slots = (8 * s.dat.len.toNat + k - 1) / k →
    (s.buf.len.toNat < slots → exec (.pack k) s = .next (s.failedWith 1 (min slots (2 ^ 32 - 1)))) ∧
    (slots ≤ s.buf.len.toNat → ∃ m : Memory,
      exec (.pack k) s = .next { s with mem := m, seq := .done } ∧
      (∀ j < slots, ∀ t < k, (m.read (s.buf.base.toNat + j)).getLsbD (k - 1 - t) =
        if j * k + t < 8 * s.dat.len.toNat then
          (s.mem.read (s.dat.base.toNat + (j * k + t) / 8)).getLsbD (7 - (j * k + t) % 8)
        else false) ∧
      (∀ j < slots, ∀ b, k ≤ b → (m.read (s.buf.base.toNat + j)).getLsbD b = (s.mem.read (s.buf.base.toNat + j)).getLsbD b) ∧
      ∀ a, ¬within s.buf.base.toNat slots a → m.read a = s.mem.read a)

/-- R105, for operands that pass the checks of R112: `UNPACK k` raises `IllegalOperand(9)`, then `FrameCorruptionError` with the slots
needed, or writes the recovered bits, most significant first, zero-padded, and changes no other byte and no register. -/
def Obligations.UnpackCommand : Prop :=
  (∀ k < 256, decode (BitVec.ofNat 32 (0x41 + 256 * k)) = .instr (.unpack k)) ∧
  ∀ (k : Nat) (s : State) (n nbytes slots : Nat), 1 ≤ k → k ≤ 4 → insideMemory s.buf → insideMemory s.dat →
    ¬overlap s.buf s.dat → n = s.bitcnt.toNat → nbytes = (n + 7) / 8 → slots = (n + k - 1) / k →
    (s.dat.len.toNat < nbytes → exec (.unpack k) s = .next (s.failedWith 7 9)) ∧
    (nbytes ≤ s.dat.len.toNat → s.buf.len.toNat < slots → exec (.unpack k) s = .next (s.failedWith 5 slots)) ∧
    (nbytes ≤ s.dat.len.toNat → slots ≤ s.buf.len.toNat → ∃ m : Memory,
      exec (.unpack k) s = .next { s with mem := m, seq := .done } ∧
      (∀ i < nbytes, ∀ t < 8, (m.read (s.dat.base.toNat + i)).getLsbD (7 - t) =
        if 8 * i + t < n then (s.mem.read (s.buf.base.toNat + (8 * i + t) / k)).getLsbD (k - 1 - (8 * i + t) % k) else false) ∧
      ∀ a, ¬within s.dat.base.toNat nbytes a → m.read a = s.mem.read a)

/-- R106: the round-trip law of the codec, for every `k`: after `PACK k`, `UNPACK k` of `8 × L` bits into a region of at least `L` bytes
that does not overlap `BUF` completes and gives the `L` bytes back. -/
def Obligations.CodecRoundTrip : Prop :=
  ∀ (k : Nat) (s t : State) (d : Region), exec (.pack k) s = .next t → t.seq = .done → insideMemory d → ¬overlap s.buf d →
    s.dat.len.toNat ≤ d.len.toNat →
    ∃ u, exec (.unpack k) { t with dat := d, bitcnt := BitVec.ofNat 32 (8 * s.dat.len.toNat) } = .next u ∧ u.seq = .done ∧
      ∀ i < s.dat.len.toNat, u.mem.read (d.base.toNat + i) = s.mem.read (s.dat.base.toNat + i)

/-- R110: `FITS k`, its encoding, its error and its answer in unbounded integers (R108); nothing else changes. -/
def Obligations.FitsCommand : Prop :=
  (∀ k < 256, decode (BitVec.ofNat 32 (0x42 + 256 * k)) = .instr (.fits k)) ∧
  ∀ (k : Nat) (s : State),
    (¬(1 ≤ k ∧ k ≤ 4) → exec (.fits k) s = .next (s.failedWith 7 1)) ∧
    (1 ≤ k → k ≤ 4 → ∃ f : Bool, (f = true ↔ s.hdrbits.toNat + s.bitcnt.toNat ≤ s.buf.len.toNat * k) ∧
      exec (.fits k) s = .next { s with flag := f, seq := .done })

/-- The two capacity checks agree, and the boundary is exact (R108, R111): `PACK` of `L` bytes that pass R112's checks succeeds exactly
when `8 × L ≤ BUF_LEN × k`, that is exactly when `FITS` of `8 × L` bits answers 1; else it raises `CapacityError` and every byte
reads as before. -/
def Obligations.CapacityBoundaryIsExact : Prop :=
  ∀ (k : Nat) (s : State), 1 ≤ k → k ≤ 4 → insideMemory s.buf → insideMemory s.dat → ¬overlap s.buf s.dat →
    ∃ t u, exec (.pack k) s = .next t ∧
      exec (.fits k) { s with hdrbits := 0, bitcnt := BitVec.ofNat 32 (8 * s.dat.len.toNat) } = .next u ∧
      (t.seq = .done ↔ 8 * s.dat.len.toNat ≤ s.buf.len.toNat * k) ∧ (t.seq = .done ↔ u.flag = true) ∧
      (t.seq ≠ .done → t.errcode = 1 ∧ ∀ a, t.mem.read a = s.mem.read a)

/-! ### The whole machine -/

/-- The invariant of the machine is kept by every step, from every state that has it: canonical memory, no command left executing,
`ERRCODE` and `ERRINFO` 0 exactly outside the failed state, and in it one of the hardware's error records (R30, R34, R35, R61, R87,
R187, R193). -/
def Obligations.StepKeepsTheInvariant : Prop :=
  ∀ s t : State, s.Inv → step s = .next t → t.Inv

/-- The reset state has the invariant (R47, R211). -/
def Obligations.ResetHasTheInvariant : Prop := State.reset.Inv

/-- No step and no command stops the machine: every transaction has an outcome and every command terminates (R87, R156, R216). -/
def Obligations.EveryStepAnswersANextState : Prop :=
  (∀ s : State, ∃ t, step s = .next t) ∧ ∀ (i : Instr) (s : State), ∃ t, exec i s = .next t
end

