-- ==== Sys2Proof/Laws/Memory.lean ====
section
/-! SUPPORT. The laws of buffer memory: read after write, what a write and a run of stores keep, and the canonical form. -/

namespace Sys2Proof.Machine

@[simp] theorem Memory.lookup_nil (a : Nat) : Memory.lookup [] a = none := rfl

theorem Memory.lookup_cons (b : Nat) (v : Byte) (m : Memory) (a : Nat) :
    Memory.lookup ((b, v) :: m) a = if a = b then some v else m.lookup a := rfl

theorem Memory.lookup_insert (m : Memory) (a b : Nat) (v : Byte) :
    (m.insert a v).lookup b = if b = a then some v else m.lookup b := by
  induction m with
  | nil => rfl
  | cons c m ih =>
    obtain ⟨d, u⟩ := c
    simp only [Memory.insert]
    split
    · simp only [Memory.lookup_cons]
    · split
      · simp only [Memory.lookup_cons]; split <;> simp_all
      · simp only [Memory.lookup_cons, ih]; split <;> split <;> simp_all

theorem Memory.lookup_write (m : Memory) (a b : Nat) (v : Byte) :
    (m.write a v).lookup b = if b = a ∧ a < Config.memSize then some v else m.lookup b := by
  unfold Memory.write
  split
  · rename_i h; simp only [Memory.lookup_insert, h, and_true]
  · rename_i h; simp only [h, and_false, if_false]

@[simp] theorem Memory.read_write_same (m : Memory) (a : Nat) (v : Byte) (h : a < Config.memSize) :
    (m.write a v).read a = v := by
  simp only [Memory.read, Memory.lookup_write, h, and_self, if_true, Option.getD_some]

@[simp] theorem Memory.read_write_other (m : Memory) (a b : Nat) (v : Byte) (h : b ≠ a) :
    (m.write a v).read b = m.read b := by
  simp only [Memory.read, Memory.lookup_write, h, false_and, if_false]

/-- R61: nothing is stored where no storage is. -/
theorem Memory.write_outside (m : Memory) (a : Nat) (v : Byte) (h : Config.memSize ≤ a) : m.write a v = m := by
  simp only [Memory.write, Nat.not_lt.mpr h, if_false]

/-- R61: an address that no storage backs reads as 0. -/
theorem Memory.read_outside (m : Memory) (a : Nat) (h : Config.memSize ≤ a) : m.read a = 0 := by
  simp only [Memory.read, Nat.not_lt.mpr h, if_false]

/-! ### The canonical form -/

theorem Memory.rising_cons (a : Nat) (v : Byte) (m : Memory) :
    Memory.rising ((a, v) :: m) = true ↔ (∀ c, m.head? = some c → a < c.1) ∧ m.rising = true := by
  cases m with
  | nil => simp [Memory.rising]
  | cons c m => obtain ⟨b, u⟩ := c; simp [Memory.rising]

theorem Memory.insert_head (m : Memory) (a : Nat) (v : Byte) (c : Host.Cell) (h : (m.insert a v).head? = some c) :
    c.1 = a ∨ m.head? = some c := by
  cases m with
  | nil => simp [Memory.insert] at h; simp [← h]
  | cons d m =>
    obtain ⟨b, u⟩ := d
    simp only [Memory.insert] at h
    split at h
    · simp at h; simp [← h]
    · split at h
      · simp at h; simp [← h]
      · simp at h; simp [h]

theorem Memory.rising_insert (m : Memory) (a : Nat) (v : Byte) (h : m.rising = true) : (m.insert a v).rising = true := by
  induction m with
  | nil => rfl
  | cons d m ih =>
    obtain ⟨b, u⟩ := d
    have h' := (Memory.rising_cons b u m).mp h
    simp only [Memory.insert]
    split
    · rename_i hab
      exact (Memory.rising_cons _ _ _).mpr ⟨by simpa using hab, h⟩
    · split
      · rename_i hab
        exact (Memory.rising_cons _ _ _).mpr ⟨by subst hab; exact h'.1, h'.2⟩
      · refine (Memory.rising_cons _ _ _).mpr ⟨fun c hc => ?_, ih h'.2⟩
        rcases Memory.insert_head m a v c hc with e | e
        · omega
        · exact h'.1 c e

theorem Memory.all_insert (p : Host.Cell → Bool) (m : Memory) (a : Nat) (v : Byte) (hv : p (a, v) = true)
    (h : m.all p = true) : (m.insert a v).all p = true := by
  induction m with
  | nil => simp [Memory.insert, hv]
  | cons d m ih =>
    obtain ⟨b, u⟩ := d
    simp only [List.all_cons, Bool.and_eq_true] at h
    simp only [Memory.insert]
    split
    · simp [hv, h.1, h.2]
    · split
      · simp [hv, h.2]
      · simp [h.1, ih h.2]

/-- A write keeps the canonical form. -/
theorem Memory.wf_write (m : Memory) (a : Nat) (v : Byte) (h : m.wf = true) : (m.write a v).wf = true := by
  simp only [Memory.wf, Bool.and_eq_true] at h ⊢
  unfold Memory.write
  split
  · rename_i ha
    exact ⟨Memory.rising_insert m a v h.1, Memory.all_insert _ m a v (decide_eq_true ha) h.2⟩
  · exact h

theorem Memory.wf_nil : Memory.wf [] = true := rfl

/-! ### Runs of stores -/

/-- A run of stores keeps the canonical form. -/
theorem storeBytes_wf (base : Nat) (f : Memory → Nat → Byte) (n : Nat) (m : Memory) (h : m.wf = true) :
    (storeBytes base f n m).wf = true := by
  induction n with
  | zero => exact h
  | succ n ih => exact Memory.wf_write _ _ _ ih

/-- A run of `n` stores changes no byte outside `[base, base + n)`. -/
theorem storeBytes_read_outside (base : Nat) (f : Memory → Nat → Byte) (n : Nat) (m : Memory) (a : Nat)
    (h : ¬(base ≤ a ∧ a < base + n)) : (storeBytes base f n m).read a = m.read a := by
  induction n with
  | zero => rfl
  | succ n ih =>
    simp only [storeBytes]
    rw [Memory.read_write_other _ _ _ _ (by omega), ih (by omega)]

/-- Byte `i` of a run is what its store computed from the memory as it was before that store. -/
theorem storeBytes_read_inside (base : Nat) (f : Memory → Nat → Byte) (n : Nat) (m : Memory) (i : Nat) (hi : i < n)
    (h : base + n ≤ Config.memSize) : (storeBytes base f n m).read (base + i) = f (storeBytes base f i m) i := by
  induction n with
  | zero => omega
  | succ n ih =>
    simp only [storeBytes]
    rcases Nat.lt_succ_iff_lt_or_eq.mp hi with hlt | heq
    · rw [Memory.read_write_other _ _ _ _ (by omega), ih hlt (by omega)]
    · subst heq
      rw [Memory.read_write_same _ _ _ (by omega)]

/-- A run of stores lists no address that no storage backs. -/
theorem storeBytes_lookup_outside (base : Nat) (f : Memory → Nat → Byte) (n : Nat) (m : Memory) (a : Nat)
    (h : Config.memSize ≤ a) : (storeBytes base f n m).lookup a = m.lookup a := by
  induction n with
  | zero => rfl
  | succ n ih =>
    simp only [storeBytes]
    rw [Memory.lookup_write, if_neg (by rintro ⟨rfl, h'⟩; omega), ih]

end Sys2Proof.Machine
end

