-- ==== Sys2Proof/Laws/Sequences.lean ====
section
/-! SUPPORT. The laws of digit sequences (`assemble`), of `ceilDiv`, and of the operand checks. -/

namespace Sys2Proof.Machine

theorem assemble_congr (base : Nat) (f g : Nat → Nat) (n : Nat) (h : ∀ i < n, f i = g i) :
    assemble base f n = assemble base g n := by
  induction n with
  | zero => rfl
  | succ n ih => simp only [assemble, ih (fun i hi => h i (by omega)), h n (by omega)]

/-- `n` digits make a number below `base ^ n`. -/
theorem assemble_lt (base : Nat) (f : Nat → Nat) (n : Nat) (h : ∀ i < n, f i < base) : assemble base f n < base ^ n := by
  induction n with
  | zero => simp [assemble]
  | succ n ih =>
    have h1 := ih (fun i hi => h i (by omega))
    have h2 := h n (by omega)
    simp only [assemble, pow_succ]
    calc base * assemble base f n + f n < base * assemble base f n + base := by omega
      _ = base * (assemble base f n + 1) := by ring
      _ ≤ base * base ^ n := Nat.mul_le_mul_left _ h1
      _ = base ^ n * base := by ring

/-- The value of a digit sequence as a sum, the first digit the most significant (R139). -/
theorem assemble_eq_sum (base : Nat) (f : Nat → Nat) (n : Nat) :
    assemble base f n = ∑ i ∈ Finset.range n, f i * base ^ (n - 1 - i) := by
  induction n with
  | zero => simp [assemble]
  | succ n ih =>
    rw [Finset.sum_range_succ, assemble, ih, Finset.mul_sum]
    congr 1
    · refine Finset.sum_congr rfl fun i hi => ?_
      have : i < n := Finset.mem_range.mp hi
      rw [show n + 1 - 1 - i = (n - 1 - i) + 1 by omega, pow_succ]
      ring
    · simp

/-- Digit `i` of a digit sequence. -/
theorem assemble_digit (base : Nat) (f : Nat → Nat) (n i : Nat) (h : ∀ j < n, f j < base) (hi : i < n) :
    assemble base f n / base ^ (n - 1 - i) % base = f i := by
  induction n with
  | zero => omega
  | succ n ih =>
    have hn := h n (by omega)
    have hb : 0 < base := by omega
    rcases Nat.lt_succ_iff_lt_or_eq.mp hi with hlt | rfl
    · rw [show n + 1 - 1 - i = (n - 1 - i) + 1 by omega, pow_succ', ← Nat.div_div_eq_div_mul]
      rw [show assemble base f (n + 1) / base = assemble base f n by
        simp only [assemble]
        rw [Nat.mul_add_div hb, Nat.div_eq_of_lt hn, Nat.add_zero]]
      exact ih (fun j hj => h j (by omega)) hlt
    · simp only [assemble, Nat.add_sub_cancel, Nat.sub_self, pow_zero, Nat.div_one]
      rw [Nat.mul_add_mod, Nat.mod_eq_of_lt hn]

/-- `ceil(a / b) ≤ c` exactly when `a ≤ c × b`. -/
theorem ceilDiv_le_iff (a b c : Nat) (hb : 0 < b) : ceilDiv a b ≤ c ↔ a ≤ c * b := by
  unfold ceilDiv
  rw [← Nat.lt_succ_iff, Nat.div_lt_iff_lt_mul hb, Nat.succ_mul]
  omega

/-- A digit position of the last of `ceil(a / b)` groups exists. -/
theorem lt_ceilDiv_iff (a b c : Nat) (hb : 0 < b) : c < ceilDiv a b ↔ c * b < a := by
  rw [← not_iff_not, not_lt, not_lt, ceilDiv_le_iff a b c hb]

theorem groupSizeLegal_iff (k : Nat) : groupSizeLegal k = true ↔ 1 ≤ k ∧ k ≤ 4 := by
  simp only [groupSizeLegal, Bool.and_eq_true, decide_eq_true_eq]
  exact Iff.rfl

theorem primeSizeLegal_iff (b : Nat) : primeSizeLegal b = true ↔ 2 ≤ b ∧ b ≤ 32 := by
  simp only [primeSizeLegal, Bool.and_eq_true, decide_eq_true_eq]
  exact Iff.rfl

theorem Region.inside_iff (r : Region) : r.inside = true ↔ r.base.toNat + r.len.toNat ≤ Config.memSize := by
  simp only [Region.inside, decide_eq_true_eq]

theorem Region.overlaps_iff (a b : Region) : a.overlaps b = true ↔
    0 < a.len.toNat ∧ 0 < b.len.toNat ∧ a.base.toNat < b.base.toNat + b.len.toNat ∧
      b.base.toNat < a.base.toNat + a.len.toNat := by
  simp only [Region.overlaps, Bool.and_eq_true, decide_eq_true_eq, and_assoc]

/-- Everything that passing the checks of `PACK` and `UNPACK` says (R112). -/
theorem codecCheck_eq_none_iff (k : Nat) (s : State) : codecCheck k s = none ↔
    groupSizeLegal k = true ∧ s.buf.inside = true ∧ s.dat.inside = true ∧ s.buf.overlaps s.dat = false := by
  unfold codecCheck
  cases groupSizeLegal k <;> cases s.buf.inside <;> cases s.dat.inside <;> cases s.buf.overlaps s.dat <;> simp

/-- The sub-codes the checks of `PACK` and `UNPACK` can give (R112). -/
theorem codecCheck_mem (k : Nat) (s : State) (c : Nat) (h : codecCheck k s = some c) : c ∈ [1, 3, 4, 5] := by
  unfold codecCheck at h
  split at h
  · injection h with h; simp [← h]
  · split at h
    · injection h with h; simp [← h]
    · split at h
      · injection h with h; simp [← h]
      · split at h
        · injection h with h; simp [← h]
        · cases h

/-- Everything that passing the checks of `LDINT` and `STINT` says (R140, R141). -/
theorem intCheck_eq_none_iff (s : State) : intCheck s = none ↔ s.dat.inside = true ∧ s.dat.len.toNat ≤ 8 := by
  have hw : Config.w / 8 = 8 := rfl
  unfold intCheck
  rw [hw]
  cases s.dat.inside <;> simp

/-- The sub-codes the checks of `LDINT` and `STINT` can give. -/
theorem intCheck_mem (s : State) (c : Nat) (h : intCheck s = some c) : c ∈ [4, 6] := by
  unfold intCheck at h
  split at h
  · injection h with h; simp [← h]
  · split at h
    · injection h with h; simp [← h]
    · cases h

end Sys2Proof.Machine
end

