-- ==== Sys2Proof/Laws/Codec.lean ====
section
/-! SUPPORT. The bits of a packed slot and of an unpacked byte (spec/41_bitpack_codec.md R101 to R105). -/

namespace Sys2Proof.Machine

/-- A bit of a byte as R101 and R105 write it. -/
theorem byte_bit (b : Byte) (i : Nat) : (b.toNat >>> i) &&& 1 = (b.getLsbD i).toNat := by
  rw [BitVec.getLsbD, Nat.testBit_eq_decide_div_mod_eq, Nat.and_one_is_mod, Nat.shiftRight_eq_div_pow]
  rcases Nat.mod_two_eq_zero_or_one (b.toNat / 2 ^ i) with h | h <;> simp [h]

theorem streamBit_eq (m : Memory) (base nbits idx : Nat) : streamBit m base nbits idx =
    (if idx < nbits then (m.read (base + idx / 8)).getLsbD (7 - idx % 8) else false).toNat := by
  unfold streamBit
  split
  · exact byte_bit _ _
  · rfl

theorem recoveredBit_eq (m : Memory) (base n k idx : Nat) : recoveredBit m base n k idx =
    (if idx < n then (m.read (base + idx / k)).getLsbD (k - 1 - idx % k) else false).toNat := by
  unfold recoveredBit
  split
  · exact byte_bit _ _
  · rfl

/-- Digit `t` of `n` binary digits is bit `n - 1 - t` of the number. -/
theorem assemble_testBit (f : Nat → Nat) (g : Nat → Bool) (hfg : ∀ i, f i = (g i).toNat) (n t : Nat) (ht : t < n) :
    (assemble 2 f n).testBit (n - 1 - t) = g t := by
  have h := assemble_digit 2 f n t (fun j _ => by rw [hfg]; exact Bool.toNat_lt _) ht
  rw [Nat.testBit_eq_decide_div_mod_eq, h, hfg]
  cases g t <;> simp

/-- Replacing the low `k` bits: the bits below `k` are the new ones. -/
theorem slotBits_low (old g k i : Nat) (hg : g < 2 ^ k) (hi : i < k) :
    (old - old % 2 ^ k + g).testBit i = g.testBit i := by
  have h : old - old % 2 ^ k + g = 2 ^ k * (old / 2 ^ k) + g := by
    have := Nat.div_add_mod old (2 ^ k)
    omega
  rw [h, Nat.testBit_two_pow_mul_add _ hg, if_pos hi]

/-- Replacing the low `k` bits: the bits from `k` up are the old ones. -/
theorem slotBits_high (old g k i : Nat) (hg : g < 2 ^ k) (hi : k ≤ i) :
    (old - old % 2 ^ k + g).testBit i = old.testBit i := by
  have h : old - old % 2 ^ k + g = 2 ^ k * (old / 2 ^ k) + g := by
    have := Nat.div_add_mod old (2 ^ k)
    omega
  rw [h, Nat.testBit_two_pow_mul_add _ hg, if_neg (by omega), Nat.testBit_div_two_pow]
  congr 1
  omega

theorem packGroup_lt (m : Memory) (base nbits k j : Nat) : packGroup m base nbits k j < 2 ^ k := by
  apply assemble_lt
  intro i _
  rw [streamBit_eq]
  exact Bool.toNat_lt _

/-- The low `k` bits of a packed slot, the earlier stream bit the more significant (R102, R103). -/
theorem packSlot_low (buf dat : Region) (k : Nat) (m : Memory) (j t : Nat) (hk : k ≤ 8) (ht : t < k) :
    (packSlot buf dat k m j).getLsbD (k - 1 - t) =
      if j * k + t < 8 * dat.len.toNat then
        (m.read (dat.base.toNat + (j * k + t) / 8)).getLsbD (7 - (j * k + t) % 8)
      else false := by
  unfold packSlot
  rw [BitVec.getLsbD_ofNat, slotBits_low _ _ _ _ (packGroup_lt _ _ _ _ _) (by omega), packGroup,
    assemble_testBit _ _ (fun i => streamBit_eq m _ _ _) k t ht]
  simp
  omega

/-- The bits above the low `k` of a packed slot are kept (R103, R104). -/
theorem packSlot_high (buf dat : Region) (k : Nat) (m : Memory) (j b : Nat) (hb : k ≤ b) :
    (packSlot buf dat k m j).getLsbD b = (m.read (buf.base.toNat + j)).getLsbD b := by
  unfold packSlot
  rw [BitVec.getLsbD_ofNat, slotBits_high _ _ _ _ (packGroup_lt _ _ _ _ _) hb]
  by_cases h : b < 8
  · simp [h, BitVec.getLsbD]
  · simp [h, BitVec.getLsbD_of_ge _ _ (Nat.le_of_not_lt h)]

/-- The bits of an unpacked byte, most significant first (R105). -/
theorem unpackByte_bit (buf : Region) (n k : Nat) (m : Memory) (i t : Nat) (ht : t < 8) :
    (unpackByte buf n k m i).getLsbD (7 - t) =
      if 8 * i + t < n then (m.read (buf.base.toNat + (8 * i + t) / k)).getLsbD (k - 1 - (8 * i + t) % k) else false := by
  unfold unpackByte
  rw [BitVec.getLsbD_ofNat]
  have h := assemble_testBit (fun t => recoveredBit m buf.base.toNat n k (8 * i + t)) _
    (fun i => recoveredBit_eq m _ _ _ _) 8 t ht
  rw [show 7 - t = 8 - 1 - t by omega, h]
  simp
  omega

end Sys2Proof.Machine
end

