-- ==== Sys2Proof/Laws/Decode.lean ====
section
/-! SUPPORT. What the decoder reads from a command word, in terms of the word's number (spec/30_encoding.md R80, R85, R86). -/

namespace Sys2Proof

/-- The decoder on the word with a given opcode and immediate byte. -/
theorem decode_fields (op imm : Nat) (ho : op < 256) (hi : imm < 256) :
    decode (BitVec.ofNat 32 (op + 256 * imm)) = decodeOpcode op imm := by
  have h1 : zeroField (BitVec.ofNat 32 (op + 256 * imm)) = 0 := by
    apply BitVec.eq_of_toNat_eq
    simp [zeroField, BitVec.extractLsb'_toNat, Nat.shiftRight_eq_div_pow]; omega
  have h2 : (opcodeField (BitVec.ofNat 32 (op + 256 * imm))).toNat = op := by
    simp [opcodeField, BitVec.extractLsb'_toNat]; omega
  have h3 : (immField (BitVec.ofNat 32 (op + 256 * imm))).toNat = imm := by
    simp [immField, BitVec.extractLsb'_toNat, Nat.shiftRight_eq_div_pow]; omega
  unfold decode
  rw [if_pos h1, h2, h3]

/-- The decoder on any word, its fields as quotients and remainders. -/
theorem decode_eq (w : Word32) : decode w =
    if w.toNat / 65536 = 0 then decodeOpcode (w.toNat % 256) (w.toNat / 256 % 256) else .illegal .zeroField := by
  have h1 : zeroField w = 0 ↔ w.toNat / 65536 = 0 := by
    rw [← BitVec.toNat_inj]
    have := w.isLt
    simp [zeroField, BitVec.extractLsb'_toNat, Nat.shiftRight_eq_div_pow]; omega
  unfold decode
  simp only [h1, opcodeField, immField, BitVec.extractLsb'_toNat, Nat.shiftRight_eq_div_pow]
  simp

/-- An opcode and an immediate select an instruction exactly when they are its own. -/
theorem decodeOpcode_instr (op imm : Nat) (i : Instr) :
    decodeOpcode op imm = .instr i ↔ (op = i.opcode ∧ imm = i.imm8) := by
  constructor
  · intro h
    unfold decodeOpcode decodeZ at h
    split at h <;> first
      | (split at h <;> simp_all <;> subst h <;> simp [Instr.opcode, Instr.imm8])
      | (simp at h; subst h; simp [Instr.opcode, Instr.imm8])
      | simp at h
  · rintro ⟨rfl, rfl⟩
    cases i <;> simp [Instr.opcode, Instr.imm8, decodeOpcode, decodeZ]

end Sys2Proof
end

