-- ==== Sys2Proof/Laws/State.lean ====
section
/-! SUPPORT. One lemma per field and update of the state, so that no later proof unfolds a record update; and what a register write
keeps. -/

namespace Sys2Proof.Machine

/-! ### raiseError -/

@[simp] theorem raiseError_opa (e : ErrorCause) (s : State) : (raiseError e s).opa = s.opa := rfl
@[simp] theorem raiseError_opb (e : ErrorCause) (s : State) : (raiseError e s).opb = s.opb := rfl
@[simp] theorem raiseError_opc (e : ErrorCause) (s : State) : (raiseError e s).opc = s.opc := rfl
@[simp] theorem raiseError_res (e : ErrorCause) (s : State) : (raiseError e s).res = s.res := rfl
@[simp] theorem raiseError_keys (e : ErrorCause) (s : State) : (raiseError e s).keys = s.keys := rfl
@[simp] theorem raiseError_seq (e : ErrorCause) (s : State) : (raiseError e s).seq = .failed := rfl
@[simp] theorem raiseError_flag (e : ErrorCause) (s : State) : (raiseError e s).flag = s.flag := rfl
@[simp] theorem raiseError_prng (e : ErrorCause) (s : State) : (raiseError e s).prng = s.prng := rfl
@[simp] theorem raiseError_errcode (e : ErrorCause) (s : State) : (raiseError e s).errcode = BitVec.ofNat 32 e.code := rfl
@[simp] theorem raiseError_errinfo (e : ErrorCause) (s : State) : (raiseError e s).errinfo = BitVec.ofNat 32 e.info := rfl
@[simp] theorem raiseError_buf (e : ErrorCause) (s : State) : (raiseError e s).buf = s.buf := rfl
@[simp] theorem raiseError_dat (e : ErrorCause) (s : State) : (raiseError e s).dat = s.dat := rfl
@[simp] theorem raiseError_bitcnt (e : ErrorCause) (s : State) : (raiseError e s).bitcnt = s.bitcnt := rfl
@[simp] theorem raiseError_hdrbits (e : ErrorCause) (s : State) : (raiseError e s).hdrbits = s.hdrbits := rfl
@[simp] theorem raiseError_mem (e : ErrorCause) (s : State) : (raiseError e s).mem = s.mem := rfl
@[simp] theorem raiseError_script (e : ErrorCause) (s : State) : (raiseError e s).script = s.script := rfl
@[simp] theorem raiseError_responses (e : ErrorCause) (s : State) : (raiseError e s).responses = s.responses := rfl
@[simp] theorem raiseError_freeIndex (e : ErrorCause) (s : State) : (raiseError e s).freeIndex = s.freeIndex := rfl

/-! ### finish -/

@[simp] theorem finish_opa (s : State) : (finish s).opa = s.opa := rfl
@[simp] theorem finish_opb (s : State) : (finish s).opb = s.opb := rfl
@[simp] theorem finish_opc (s : State) : (finish s).opc = s.opc := rfl
@[simp] theorem finish_res (s : State) : (finish s).res = s.res := rfl
@[simp] theorem finish_keys (s : State) : (finish s).keys = s.keys := rfl
@[simp] theorem finish_seq (s : State) : (finish s).seq = .done := rfl
@[simp] theorem finish_flag (s : State) : (finish s).flag = s.flag := rfl
@[simp] theorem finish_prng (s : State) : (finish s).prng = s.prng := rfl
@[simp] theorem finish_errcode (s : State) : (finish s).errcode = s.errcode := rfl
@[simp] theorem finish_errinfo (s : State) : (finish s).errinfo = s.errinfo := rfl
@[simp] theorem finish_buf (s : State) : (finish s).buf = s.buf := rfl
@[simp] theorem finish_dat (s : State) : (finish s).dat = s.dat := rfl
@[simp] theorem finish_bitcnt (s : State) : (finish s).bitcnt = s.bitcnt := rfl
@[simp] theorem finish_hdrbits (s : State) : (finish s).hdrbits = s.hdrbits := rfl
@[simp] theorem finish_mem (s : State) : (finish s).mem = s.mem := rfl
@[simp] theorem finish_script (s : State) : (finish s).script = s.script := rfl
@[simp] theorem finish_responses (s : State) : (finish s).responses = s.responses := rfl
@[simp] theorem finish_freeIndex (s : State) : (finish s).freeIndex = s.freeIndex := rfl

/-! ### clearError -/

@[simp] theorem clearError_opa (s : State) : (clearError s).opa = s.opa := rfl
@[simp] theorem clearError_opb (s : State) : (clearError s).opb = s.opb := rfl
@[simp] theorem clearError_opc (s : State) : (clearError s).opc = s.opc := rfl
@[simp] theorem clearError_res (s : State) : (clearError s).res = s.res := rfl
@[simp] theorem clearError_keys (s : State) : (clearError s).keys = s.keys := rfl
@[simp] theorem clearError_seq (s : State) : (clearError s).seq = .done := rfl
@[simp] theorem clearError_flag (s : State) : (clearError s).flag = s.flag := rfl
@[simp] theorem clearError_prng (s : State) : (clearError s).prng = s.prng := rfl
@[simp] theorem clearError_errcode (s : State) : (clearError s).errcode = 0 := rfl
@[simp] theorem clearError_errinfo (s : State) : (clearError s).errinfo = 0 := rfl
@[simp] theorem clearError_buf (s : State) : (clearError s).buf = s.buf := rfl
@[simp] theorem clearError_dat (s : State) : (clearError s).dat = s.dat := rfl
@[simp] theorem clearError_bitcnt (s : State) : (clearError s).bitcnt = s.bitcnt := rfl
@[simp] theorem clearError_hdrbits (s : State) : (clearError s).hdrbits = s.hdrbits := rfl
@[simp] theorem clearError_mem (s : State) : (clearError s).mem = s.mem := rfl
@[simp] theorem clearError_script (s : State) : (clearError s).script = s.script := rfl
@[simp] theorem clearError_responses (s : State) : (clearError s).responses = s.responses := rfl
@[simp] theorem clearError_freeIndex (s : State) : (clearError s).freeIndex = s.freeIndex := rfl

/-! ### resetRegisters -/

@[simp] theorem resetRegisters_opa (s : State) : (resetRegisters s).opa = 0 := rfl
@[simp] theorem resetRegisters_opb (s : State) : (resetRegisters s).opb = 0 := rfl
@[simp] theorem resetRegisters_opc (s : State) : (resetRegisters s).opc = 0 := rfl
@[simp] theorem resetRegisters_res (s : State) : (resetRegisters s).res = 0 := rfl
@[simp] theorem resetRegisters_keys (s : State) : (resetRegisters s).keys = KeyRegs.zero := rfl
@[simp] theorem resetRegisters_seq (s : State) : (resetRegisters s).seq = .idle := rfl
@[simp] theorem resetRegisters_flag (s : State) : (resetRegisters s).flag = false := rfl
@[simp] theorem resetRegisters_prng (s : State) : (resetRegisters s).prng = 1#32 := rfl
@[simp] theorem resetRegisters_errcode (s : State) : (resetRegisters s).errcode = 0 := rfl
@[simp] theorem resetRegisters_errinfo (s : State) : (resetRegisters s).errinfo = 0 := rfl
@[simp] theorem resetRegisters_buf (s : State) : (resetRegisters s).buf = Region.zero := rfl
@[simp] theorem resetRegisters_dat (s : State) : (resetRegisters s).dat = Region.zero := rfl
@[simp] theorem resetRegisters_bitcnt (s : State) : (resetRegisters s).bitcnt = 0 := rfl
@[simp] theorem resetRegisters_hdrbits (s : State) : (resetRegisters s).hdrbits = 0 := rfl
@[simp] theorem resetRegisters_mem (s : State) : (resetRegisters s).mem = s.mem := rfl
@[simp] theorem resetRegisters_script (s : State) : (resetRegisters s).script = s.script := rfl
@[simp] theorem resetRegisters_responses (s : State) : (resetRegisters s).responses = s.responses := rfl
@[simp] theorem resetRegisters_freeIndex (s : State) : (resetRegisters s).freeIndex = s.freeIndex := rfl

/-! ### acceptCommand -/

@[simp] theorem acceptCommand_opa (s : State) : (acceptCommand s).opa = s.opa := rfl
@[simp] theorem acceptCommand_opb (s : State) : (acceptCommand s).opb = s.opb := rfl
@[simp] theorem acceptCommand_opc (s : State) : (acceptCommand s).opc = s.opc := rfl
@[simp] theorem acceptCommand_res (s : State) : (acceptCommand s).res = s.res := rfl
@[simp] theorem acceptCommand_keys (s : State) : (acceptCommand s).keys = s.keys := rfl
@[simp] theorem acceptCommand_seq (s : State) : (acceptCommand s).seq = .busy := rfl
@[simp] theorem acceptCommand_flag (s : State) : (acceptCommand s).flag = s.flag := rfl
@[simp] theorem acceptCommand_prng (s : State) : (acceptCommand s).prng = s.prng := rfl
@[simp] theorem acceptCommand_errcode (s : State) : (acceptCommand s).errcode = s.errcode := rfl
@[simp] theorem acceptCommand_errinfo (s : State) : (acceptCommand s).errinfo = s.errinfo := rfl
@[simp] theorem acceptCommand_buf (s : State) : (acceptCommand s).buf = s.buf := rfl
@[simp] theorem acceptCommand_dat (s : State) : (acceptCommand s).dat = s.dat := rfl
@[simp] theorem acceptCommand_bitcnt (s : State) : (acceptCommand s).bitcnt = s.bitcnt := rfl
@[simp] theorem acceptCommand_hdrbits (s : State) : (acceptCommand s).hdrbits = s.hdrbits := rfl
@[simp] theorem acceptCommand_mem (s : State) : (acceptCommand s).mem = s.mem := rfl
@[simp] theorem acceptCommand_script (s : State) : (acceptCommand s).script = s.script := rfl
@[simp] theorem acceptCommand_responses (s : State) : (acceptCommand s).responses = s.responses := rfl
@[simp] theorem acceptCommand_freeIndex (s : State) : (acceptCommand s).freeIndex = s.freeIndex := rfl

/-! ### powerToRes -/

@[simp] theorem powerToRes_opa (b e n : Word) (s : State) : (powerToRes b e n s).opa = s.opa := rfl
@[simp] theorem powerToRes_opb (b e n : Word) (s : State) : (powerToRes b e n s).opb = s.opb := rfl
@[simp] theorem powerToRes_opc (b e n : Word) (s : State) : (powerToRes b e n s).opc = s.opc := rfl
@[simp] theorem powerToRes_res (b e n : Word) (s : State) : (powerToRes b e n s).res = BitVec.ofNat 64 (modexp b.toNat e.toNat n.toNat) := rfl
@[simp] theorem powerToRes_keys (b e n : Word) (s : State) : (powerToRes b e n s).keys = s.keys := rfl
@[simp] theorem powerToRes_seq (b e n : Word) (s : State) : (powerToRes b e n s).seq = .done := rfl
@[simp] theorem powerToRes_flag (b e n : Word) (s : State) : (powerToRes b e n s).flag = s.flag := rfl
@[simp] theorem powerToRes_prng (b e n : Word) (s : State) : (powerToRes b e n s).prng = s.prng := rfl
@[simp] theorem powerToRes_errcode (b e n : Word) (s : State) : (powerToRes b e n s).errcode = s.errcode := rfl
@[simp] theorem powerToRes_errinfo (b e n : Word) (s : State) : (powerToRes b e n s).errinfo = s.errinfo := rfl
@[simp] theorem powerToRes_buf (b e n : Word) (s : State) : (powerToRes b e n s).buf = s.buf := rfl
@[simp] theorem powerToRes_dat (b e n : Word) (s : State) : (powerToRes b e n s).dat = s.dat := rfl
@[simp] theorem powerToRes_bitcnt (b e n : Word) (s : State) : (powerToRes b e n s).bitcnt = s.bitcnt := rfl
@[simp] theorem powerToRes_hdrbits (b e n : Word) (s : State) : (powerToRes b e n s).hdrbits = s.hdrbits := rfl
@[simp] theorem powerToRes_mem (b e n : Word) (s : State) : (powerToRes b e n s).mem = s.mem := rfl
@[simp] theorem powerToRes_script (b e n : Word) (s : State) : (powerToRes b e n s).script = s.script := rfl
@[simp] theorem powerToRes_responses (b e n : Word) (s : State) : (powerToRes b e n s).responses = s.responses := rfl
@[simp] theorem powerToRes_freeIndex (b e n : Word) (s : State) : (powerToRes b e n s).freeIndex = s.freeIndex := rfl

/-! ### respond -/

@[simp] theorem respond_opa (x : Response) (s : State) : (respond x s).opa = s.opa := rfl
@[simp] theorem respond_opb (x : Response) (s : State) : (respond x s).opb = s.opb := rfl
@[simp] theorem respond_opc (x : Response) (s : State) : (respond x s).opc = s.opc := rfl
@[simp] theorem respond_res (x : Response) (s : State) : (respond x s).res = s.res := rfl
@[simp] theorem respond_keys (x : Response) (s : State) : (respond x s).keys = s.keys := rfl
@[simp] theorem respond_seq (x : Response) (s : State) : (respond x s).seq = s.seq := rfl
@[simp] theorem respond_flag (x : Response) (s : State) : (respond x s).flag = s.flag := rfl
@[simp] theorem respond_prng (x : Response) (s : State) : (respond x s).prng = s.prng := rfl
@[simp] theorem respond_errcode (x : Response) (s : State) : (respond x s).errcode = s.errcode := rfl
@[simp] theorem respond_errinfo (x : Response) (s : State) : (respond x s).errinfo = s.errinfo := rfl
@[simp] theorem respond_buf (x : Response) (s : State) : (respond x s).buf = s.buf := rfl
@[simp] theorem respond_dat (x : Response) (s : State) : (respond x s).dat = s.dat := rfl
@[simp] theorem respond_bitcnt (x : Response) (s : State) : (respond x s).bitcnt = s.bitcnt := rfl
@[simp] theorem respond_hdrbits (x : Response) (s : State) : (respond x s).hdrbits = s.hdrbits := rfl
@[simp] theorem respond_mem (x : Response) (s : State) : (respond x s).mem = s.mem := rfl
@[simp] theorem respond_script (x : Response) (s : State) : (respond x s).script = s.script := rfl
@[simp] theorem respond_responses (x : Response) (s : State) : (respond x s).responses = s.responses ++ [x] := rfl
@[simp] theorem respond_freeIndex (x : Response) (s : State) : (respond x s).freeIndex = s.freeIndex := rfl

/-! ### withoutWindow -/

@[simp] theorem withoutWindow_opa (s : State) : (withoutWindow s).opa = s.opa := rfl
@[simp] theorem withoutWindow_opb (s : State) : (withoutWindow s).opb = s.opb := rfl
@[simp] theorem withoutWindow_opc (s : State) : (withoutWindow s).opc = s.opc := rfl
@[simp] theorem withoutWindow_res (s : State) : (withoutWindow s).res = s.res := rfl
@[simp] theorem withoutWindow_keys (s : State) : (withoutWindow s).keys = s.keys := rfl
@[simp] theorem withoutWindow_seq (s : State) : (withoutWindow s).seq = s.seq := rfl
@[simp] theorem withoutWindow_flag (s : State) : (withoutWindow s).flag = s.flag := rfl
@[simp] theorem withoutWindow_prng (s : State) : (withoutWindow s).prng = s.prng := rfl
@[simp] theorem withoutWindow_errcode (s : State) : (withoutWindow s).errcode = s.errcode := rfl
@[simp] theorem withoutWindow_errinfo (s : State) : (withoutWindow s).errinfo = s.errinfo := rfl
@[simp] theorem withoutWindow_buf (s : State) : (withoutWindow s).buf = s.buf := rfl
@[simp] theorem withoutWindow_dat (s : State) : (withoutWindow s).dat = s.dat := rfl
@[simp] theorem withoutWindow_bitcnt (s : State) : (withoutWindow s).bitcnt = s.bitcnt := rfl
@[simp] theorem withoutWindow_hdrbits (s : State) : (withoutWindow s).hdrbits = s.hdrbits := rfl
@[simp] theorem withoutWindow_mem (s : State) : (withoutWindow s).mem = s.mem := rfl
@[simp] theorem withoutWindow_script (s : State) : (withoutWindow s).script = s.script.dropWhile (fun e => e.inWindow) := rfl
@[simp] theorem withoutWindow_responses (s : State) : (withoutWindow s).responses = s.responses := rfl
@[simp] theorem withoutWindow_freeIndex (s : State) : (withoutWindow s).freeIndex = s.freeIndex := rfl

/-! ### presentWord -/

@[simp] theorem presentWord_opa (w : Nat) (s : State) : (presentWord w s).opa = s.opa := rfl
@[simp] theorem presentWord_opb (w : Nat) (s : State) : (presentWord w s).opb = s.opb := rfl
@[simp] theorem presentWord_opc (w : Nat) (s : State) : (presentWord w s).opc = s.opc := rfl
@[simp] theorem presentWord_res (w : Nat) (s : State) : (presentWord w s).res = s.res := rfl
@[simp] theorem presentWord_keys (w : Nat) (s : State) : (presentWord w s).keys = s.keys := rfl
@[simp] theorem presentWord_seq (w : Nat) (s : State) : (presentWord w s).seq = s.seq := rfl
@[simp] theorem presentWord_flag (w : Nat) (s : State) : (presentWord w s).flag = s.flag := rfl
@[simp] theorem presentWord_prng (w : Nat) (s : State) : (presentWord w s).prng = s.prng := rfl
@[simp] theorem presentWord_errcode (w : Nat) (s : State) : (presentWord w s).errcode = s.errcode := rfl
@[simp] theorem presentWord_errinfo (w : Nat) (s : State) : (presentWord w s).errinfo = s.errinfo := rfl
@[simp] theorem presentWord_buf (w : Nat) (s : State) : (presentWord w s).buf = s.buf := rfl
@[simp] theorem presentWord_dat (w : Nat) (s : State) : (presentWord w s).dat = s.dat := rfl
@[simp] theorem presentWord_bitcnt (w : Nat) (s : State) : (presentWord w s).bitcnt = s.bitcnt := rfl
@[simp] theorem presentWord_hdrbits (w : Nat) (s : State) : (presentWord w s).hdrbits = s.hdrbits := rfl
@[simp] theorem presentWord_mem (w : Nat) (s : State) : (presentWord w s).mem = s.mem := rfl
@[simp] theorem presentWord_script (w : Nat) (s : State) : (presentWord w s).script = commandEvent w :: s.script := rfl
@[simp] theorem presentWord_responses (w : Nat) (s : State) : (presentWord w s).responses = s.responses := rfl
@[simp] theorem presentWord_freeIndex (w : Nat) (s : State) : (presentWord w s).freeIndex = s.freeIndex := rfl

/-! ### failedWith -/

@[simp] theorem State.failedWith_opa (s : State) (c n : Nat) : (s.failedWith c n).opa = s.opa := rfl
@[simp] theorem State.failedWith_opb (s : State) (c n : Nat) : (s.failedWith c n).opb = s.opb := rfl
@[simp] theorem State.failedWith_opc (s : State) (c n : Nat) : (s.failedWith c n).opc = s.opc := rfl
@[simp] theorem State.failedWith_res (s : State) (c n : Nat) : (s.failedWith c n).res = s.res := rfl
@[simp] theorem State.failedWith_keys (s : State) (c n : Nat) : (s.failedWith c n).keys = s.keys := rfl
@[simp] theorem State.failedWith_seq (s : State) (c n : Nat) : (s.failedWith c n).seq = .failed := rfl
@[simp] theorem State.failedWith_flag (s : State) (c n : Nat) : (s.failedWith c n).flag = s.flag := rfl
@[simp] theorem State.failedWith_prng (s : State) (c n : Nat) : (s.failedWith c n).prng = s.prng := rfl
@[simp] theorem State.failedWith_errcode (s : State) (c n : Nat) : (s.failedWith c n).errcode = BitVec.ofNat 32 c := rfl
@[simp] theorem State.failedWith_errinfo (s : State) (c n : Nat) : (s.failedWith c n).errinfo = BitVec.ofNat 32 n := rfl
@[simp] theorem State.failedWith_buf (s : State) (c n : Nat) : (s.failedWith c n).buf = s.buf := rfl
@[simp] theorem State.failedWith_dat (s : State) (c n : Nat) : (s.failedWith c n).dat = s.dat := rfl
@[simp] theorem State.failedWith_bitcnt (s : State) (c n : Nat) : (s.failedWith c n).bitcnt = s.bitcnt := rfl
@[simp] theorem State.failedWith_hdrbits (s : State) (c n : Nat) : (s.failedWith c n).hdrbits = s.hdrbits := rfl
@[simp] theorem State.failedWith_mem (s : State) (c n : Nat) : (s.failedWith c n).mem = s.mem := rfl
@[simp] theorem State.failedWith_script (s : State) (c n : Nat) : (s.failedWith c n).script = s.script := rfl
@[simp] theorem State.failedWith_responses (s : State) (c n : Nat) : (s.failedWith c n).responses = s.responses := rfl
@[simp] theorem State.failedWith_freeIndex (s : State) (c n : Nat) : (s.failedWith c n).freeIndex = s.freeIndex := rfl

/-! ### popped -/

@[simp] theorem State.popped_opa (s : State) (rest : List HostEvent) : (s.popped rest).opa = s.opa := rfl
@[simp] theorem State.popped_opb (s : State) (rest : List HostEvent) : (s.popped rest).opb = s.opb := rfl
@[simp] theorem State.popped_opc (s : State) (rest : List HostEvent) : (s.popped rest).opc = s.opc := rfl
@[simp] theorem State.popped_res (s : State) (rest : List HostEvent) : (s.popped rest).res = s.res := rfl
@[simp] theorem State.popped_keys (s : State) (rest : List HostEvent) : (s.popped rest).keys = s.keys := rfl
@[simp] theorem State.popped_seq (s : State) (rest : List HostEvent) : (s.popped rest).seq = s.seq := rfl
@[simp] theorem State.popped_flag (s : State) (rest : List HostEvent) : (s.popped rest).flag = s.flag := rfl
@[simp] theorem State.popped_prng (s : State) (rest : List HostEvent) : (s.popped rest).prng = s.prng := rfl
@[simp] theorem State.popped_errcode (s : State) (rest : List HostEvent) : (s.popped rest).errcode = s.errcode := rfl
@[simp] theorem State.popped_errinfo (s : State) (rest : List HostEvent) : (s.popped rest).errinfo = s.errinfo := rfl
@[simp] theorem State.popped_buf (s : State) (rest : List HostEvent) : (s.popped rest).buf = s.buf := rfl
@[simp] theorem State.popped_dat (s : State) (rest : List HostEvent) : (s.popped rest).dat = s.dat := rfl
@[simp] theorem State.popped_bitcnt (s : State) (rest : List HostEvent) : (s.popped rest).bitcnt = s.bitcnt := rfl
@[simp] theorem State.popped_hdrbits (s : State) (rest : List HostEvent) : (s.popped rest).hdrbits = s.hdrbits := rfl
@[simp] theorem State.popped_mem (s : State) (rest : List HostEvent) : (s.popped rest).mem = s.mem := rfl
@[simp] theorem State.popped_script (s : State) (rest : List HostEvent) : (s.popped rest).script = rest := rfl
@[simp] theorem State.popped_responses (s : State) (rest : List HostEvent) : (s.popped rest).responses = [] := rfl
@[simp] theorem State.popped_freeIndex (s : State) (rest : List HostEvent) : (s.popped rest).freeIndex = s.freeIndex := rfl

/-! ### writeReg and writeRegNum: what a host write keeps -/

@[simp] theorem writeReg_seq (r : Reg) (v : Word) (s : State) : (writeReg r v s).seq = s.seq := by cases r <;> rfl

@[simp] theorem writeReg_flag (r : Reg) (v : Word) (s : State) : (writeReg r v s).flag = s.flag := by cases r <;> rfl

@[simp] theorem writeReg_errcode (r : Reg) (v : Word) (s : State) : (writeReg r v s).errcode = s.errcode := by cases r <;> rfl

@[simp] theorem writeReg_errinfo (r : Reg) (v : Word) (s : State) : (writeReg r v s).errinfo = s.errinfo := by cases r <;> rfl

@[simp] theorem writeReg_mem (r : Reg) (v : Word) (s : State) : (writeReg r v s).mem = s.mem := by cases r <;> rfl

@[simp] theorem writeReg_script (r : Reg) (v : Word) (s : State) : (writeReg r v s).script = s.script := by cases r <;> rfl

@[simp] theorem writeReg_responses (r : Reg) (v : Word) (s : State) : (writeReg r v s).responses = s.responses := by cases r <;> rfl

@[simp] theorem writeReg_freeIndex (r : Reg) (v : Word) (s : State) : (writeReg r v s).freeIndex = s.freeIndex := by cases r <;> rfl

@[simp] theorem writeRegNum_seq (r : RegNum) (v : Word) (s : State) : (writeRegNum r v s).seq = s.seq := by
  unfold writeRegNum; split <;> simp

@[simp] theorem writeRegNum_flag (r : RegNum) (v : Word) (s : State) : (writeRegNum r v s).flag = s.flag := by
  unfold writeRegNum; split <;> simp

@[simp] theorem writeRegNum_errcode (r : RegNum) (v : Word) (s : State) : (writeRegNum r v s).errcode = s.errcode := by
  unfold writeRegNum; split <;> simp

@[simp] theorem writeRegNum_errinfo (r : RegNum) (v : Word) (s : State) : (writeRegNum r v s).errinfo = s.errinfo := by
  unfold writeRegNum; split <;> simp

@[simp] theorem writeRegNum_mem (r : RegNum) (v : Word) (s : State) : (writeRegNum r v s).mem = s.mem := by
  unfold writeRegNum; split <;> simp

@[simp] theorem writeRegNum_script (r : RegNum) (v : Word) (s : State) : (writeRegNum r v s).script = s.script := by
  unfold writeRegNum; split <;> simp

@[simp] theorem writeRegNum_responses (r : RegNum) (v : Word) (s : State) : (writeRegNum r v s).responses = s.responses := by
  unfold writeRegNum; split <;> simp

@[simp] theorem writeRegNum_freeIndex (r : RegNum) (v : Word) (s : State) : (writeRegNum r v s).freeIndex = s.freeIndex := by
  unfold writeRegNum; split <;> simp

end Sys2Proof.Machine
end

