-- ==== Sys2Proof/Laws/Exec.lean ====
section
/-! SUPPORT. One inversion lemma per meaning: every case in which it answers a next state, with the conditions of the case. Proofs cite
these and do not unfold a meaning. -/

namespace Sys2Proof.Machine

variable {s t : State} {k b : Nat}

theorem next_inj {s t : State} (h : (Host.Outcome.next s : Host.Outcome State Fault Refusal) = .next t) : s = t := by
  injection h

theorem execNop_cases (h : execNop s = .next t) : t = finish s := (next_inj h).symm

theorem execClrerr_cases (h : execClrerr s = .next t) : t = clearError s := (next_inj h).symm

theorem execSrst_cases (h : execSrst s = .next t) : t = resetRegisters s := (next_inj h).symm

theorem execModexp_cases (h : execModexp s = .next t) :
    (s.opc = 0 ∧ t = raiseError (.illegalOperand 8) s) ∨ (s.opc ≠ 0 ∧ t = powerToRes s.opa s.opb s.opc s) := by
  unfold execModexp at h
  split at h
  · rename_i h0; exact .inl ⟨h0, (next_inj h).symm⟩
  · rename_i h0; exact .inr ⟨h0, (next_inj h).symm⟩

theorem execEncrypt_cases (h : execEncrypt s = .next t) :
    (s.keys.n = 0 ∧ t = raiseError (.illegalOperand 8) s) ∨
    (s.keys.n ≠ 0 ∧ s.keys.n.toNat ≤ s.opa.toNat ∧ t = raiseError .messageTooLarge s) ∨
    (s.keys.n ≠ 0 ∧ s.opa.toNat < s.keys.n.toNat ∧ t = powerToRes s.opa s.keys.e s.keys.n s) := by
  unfold execEncrypt at h
  split at h
  · rename_i h0; exact .inl ⟨h0, (next_inj h).symm⟩
  · rename_i h0
    split at h
    · rename_i h1; exact .inr (.inl ⟨h0, h1, (next_inj h).symm⟩)
    · rename_i h1; exact .inr (.inr ⟨h0, by omega, (next_inj h).symm⟩)

theorem execDecrypt_cases (h : execDecrypt s = .next t) :
    (s.keys.n = 0 ∧ t = raiseError (.illegalOperand 8) s) ∨
    (s.keys.n ≠ 0 ∧ t = powerToRes s.opa s.keys.d s.keys.n s) := by
  unfold execDecrypt at h
  split at h
  · rename_i h0; exact .inl ⟨h0, (next_inj h).symm⟩
  · rename_i h0; exact .inr ⟨h0, (next_inj h).symm⟩

theorem execPrimegen_cases (h : execPrimegen b s = .next t) :
    (primeSizeLegal b = false ∧ t = raiseError (.illegalOperand 2) s) ∨
    (primeSizeLegal b = true ∧ ∃ g, primeSearch b 0 Config.retryMax s.prng = (none, g) ∧
      t = raiseError (.keyGeneration 1) { s with prng := g }) ∨
    (primeSizeLegal b = true ∧ ∃ p g, primeSearch b 0 Config.retryMax s.prng = (some p, g) ∧
      t = finish { s with prng := g, res := BitVec.ofNat 64 p }) := by
  unfold execPrimegen at h
  rcases hs : primeSearch b 0 Config.retryMax s.prng with ⟨_ | p, g⟩ <;> cases hb : primeSizeLegal b <;>
    simp only [hb, hs, Bool.not_false, Bool.not_true, if_true, Bool.false_eq_true, if_false] at h
  · exact .inl ⟨rfl, (next_inj h).symm⟩
  · exact .inr (.inl ⟨rfl, g, rfl, (next_inj h).symm⟩)
  · exact .inl ⟨rfl, (next_inj h).symm⟩
  · exact .inr (.inr ⟨rfl, p, g, rfl, (next_inj h).symm⟩)

theorem execPtest_cases (h : execPtest s = .next t) :
    (2 ^ Config.pw ≤ s.opa.toNat ∧ t = raiseError (.illegalOperand 10) s) ∨
    (s.opa.toNat < 2 ^ Config.pw ∧ t = finish { s with flag := isPrime s.opa.toNat }) := by
  unfold execPtest at h
  split at h
  · rename_i h0; exact .inl ⟨h0, (next_inj h).symm⟩
  · rename_i h0; exact .inr ⟨Nat.lt_of_not_le h0, (next_inj h).symm⟩

theorem keygenFinish_cases (p q : Nat) (s : State) :
    (chooseE ((p - 1) * (q - 1)) = none ∧ keygenFinish p q s = raiseError (.keyGeneration 3) s) ∨
    ∃ e, chooseE ((p - 1) * (q - 1)) = some e ∧ keygenFinish p q s = finish { s with keys := keyRegs p q e } := by
  unfold keygenFinish
  cases chooseE ((p - 1) * (q - 1)) with
  | none => exact .inl ⟨rfl, rfl⟩
  | some e => exact .inr ⟨e, rfl, rfl⟩

theorem keygenSecond_cases (b p : Nat) (s : State) :
    (∃ g, primeSearch b p Config.retryMax s.prng = (none, g) ∧
      keygenSecond b p s = raiseError (.keyGeneration 2) { s with prng := g }) ∨
    ∃ q g, primeSearch b p Config.retryMax s.prng = (some q, g) ∧
      keygenSecond b p s = keygenFinish p q { s with prng := g } := by
  unfold keygenSecond
  rcases hs : primeSearch b p Config.retryMax s.prng with ⟨_ | q, g⟩
  · exact .inl ⟨g, rfl, rfl⟩
  · exact .inr ⟨q, g, rfl, rfl⟩

theorem keygenFirst_cases (b : Nat) (s : State) :
    (∃ g, primeSearch b 0 Config.retryMax s.prng = (none, g) ∧
      keygenFirst b s = raiseError (.keyGeneration 1) { s with prng := g }) ∨
    ∃ p g, primeSearch b 0 Config.retryMax s.prng = (some p, g) ∧
      keygenFirst b s = keygenSecond b p { s with prng := g } := by
  unfold keygenFirst
  rcases hs : primeSearch b 0 Config.retryMax s.prng with ⟨_ | p, g⟩
  · exact .inl ⟨g, rfl, rfl⟩
  · exact .inr ⟨p, g, rfl, rfl⟩

/-- Every case of `KEYGEN`: the size rejected, a stage failed, or a key. -/
theorem execKeygen_cases (h : execKeygen b s = .next t) :
    (primeSizeLegal b = false ∧ t = raiseError (.illegalOperand 2) s) ∨
    (primeSizeLegal b = true ∧ ∃ stage g, stage ∈ [1, 2, 3] ∧
      t = raiseError (.keyGeneration stage) { s with keys := KeyRegs.zero, prng := g }) ∨
    (primeSizeLegal b = true ∧ ∃ p g q g' e, primeSearch b 0 Config.retryMax s.prng = (some p, g) ∧
      primeSearch b p Config.retryMax g = (some q, g') ∧ chooseE ((p - 1) * (q - 1)) = some e ∧
      t = finish { s with keys := keyRegs p q e, prng := g' }) := by
  unfold execKeygen at h
  cases hb : primeSizeLegal b <;>
    simp only [hb, Bool.not_false, Bool.not_true, if_true, Bool.false_eq_true, if_false] at h
  · exact .inl ⟨rfl, (next_inj h).symm⟩
  · have ht := (next_inj h).symm
    right
    rcases keygenFirst_cases b { s with keys := KeyRegs.zero } with ⟨g, -, e1⟩ | ⟨p, g, hp, e1⟩
    · exact .inl ⟨rfl, 1, g, by simp, ht.trans e1⟩
    · rcases keygenSecond_cases b p { s with keys := KeyRegs.zero, prng := g } with ⟨g', -, e2⟩ | ⟨q, g', hq, e2⟩
      · exact .inl ⟨rfl, 2, g', by simp, ht.trans (e1.trans e2)⟩
      · rcases keygenFinish_cases p q { s with keys := KeyRegs.zero, prng := g' } with ⟨-, e3⟩ | ⟨e, he, e3⟩
        · exact .inl ⟨rfl, 3, g', by simp, ht.trans (e1.trans (e2.trans e3))⟩
        · exact .inr ⟨rfl, p, g, q, g', e, hp, hq, he, ht.trans (e1.trans (e2.trans e3))⟩

theorem execLdint_cases (h : execLdint s = .next t) :
    (∃ sub, intCheck s = some sub ∧ t = raiseError (.illegalOperand sub) s) ∨
    (intCheck s = none ∧ t = finish { s with opa := BitVec.ofNat 64 (intOfRegion s.mem s.dat) }) := by
  unfold execLdint at h
  split at h
  · rename_i sub hs; exact .inl ⟨sub, hs, (next_inj h).symm⟩
  · rename_i hs; exact .inr ⟨hs, (next_inj h).symm⟩

theorem execStint_cases (h : execStint s = .next t) :
    (∃ sub, intCheck s = some sub ∧ t = raiseError (.illegalOperand sub) s) ∨
    (intCheck s = none ∧ 256 ^ s.dat.len.toNat ≤ s.res.toNat ∧ t = raiseError (.illegalOperand 7) s) ∨
    (intCheck s = none ∧ s.res.toNat < 256 ^ s.dat.len.toNat ∧ t = finish { s with
      mem := storeBytes s.dat.base.toNat (fun _ i => byteOfInt s.res.toNat s.dat.len.toNat i) s.dat.len.toNat s.mem }) := by
  unfold execStint at h
  split at h
  · rename_i sub hs; exact .inl ⟨sub, hs, (next_inj h).symm⟩
  · rename_i hs
    split at h
    · rename_i h1; exact .inr (.inl ⟨hs, h1, (next_inj h).symm⟩)
    · rename_i h1; exact .inr (.inr ⟨hs, Nat.lt_of_not_le h1, (next_inj h).symm⟩)

theorem execPack_cases (h : execPack k s = .next t) :
    (∃ sub, codecCheck k s = some sub ∧ t = raiseError (.illegalOperand sub) s) ∨
    (codecCheck k s = none ∧ s.buf.len.toNat < packSlots k s ∧ t = raiseError (.capacity (packSlots k s)) s) ∨
    (codecCheck k s = none ∧ packSlots k s ≤ s.buf.len.toNat ∧ t = finish { s with
      mem := storeBytes s.buf.base.toNat (packSlot s.buf s.dat k) (packSlots k s) s.mem }) := by
  unfold execPack at h
  split at h
  · rename_i sub hs; exact .inl ⟨sub, hs, (next_inj h).symm⟩
  · rename_i hs
    split at h
    · rename_i h1; exact .inr (.inl ⟨hs, h1, (next_inj h).symm⟩)
    · rename_i h1; exact .inr (.inr ⟨hs, Nat.le_of_not_lt h1, (next_inj h).symm⟩)

theorem execUnpack_cases (h : execUnpack k s = .next t) :
    (∃ sub, codecCheck k s = some sub ∧ t = raiseError (.illegalOperand sub) s) ∨
    (codecCheck k s = none ∧ s.dat.len.toNat < unpackBytes s ∧ t = raiseError (.illegalOperand 9) s) ∨
    (codecCheck k s = none ∧ unpackBytes s ≤ s.dat.len.toNat ∧ s.buf.len.toNat < unpackSlots k s ∧
      t = raiseError (.frameCorruption (unpackSlots k s)) s) ∨
    (codecCheck k s = none ∧ unpackBytes s ≤ s.dat.len.toNat ∧ unpackSlots k s ≤ s.buf.len.toNat ∧ t = finish { s with
      mem := storeBytes s.dat.base.toNat (unpackByte s.buf s.bitcnt.toNat k) (unpackBytes s) s.mem }) := by
  unfold execUnpack at h
  split at h
  · rename_i sub hs; exact .inl ⟨sub, hs, (next_inj h).symm⟩
  · rename_i hs
    split at h
    · rename_i h1; exact .inr (.inl ⟨hs, h1, (next_inj h).symm⟩)
    · rename_i h1
      split at h
      · rename_i h2; exact .inr (.inr (.inl ⟨hs, Nat.le_of_not_lt h1, h2, (next_inj h).symm⟩))
      · rename_i h2; exact .inr (.inr (.inr ⟨hs, Nat.le_of_not_lt h1, Nat.le_of_not_lt h2, (next_inj h).symm⟩))

theorem execFits_cases (h : execFits k s = .next t) :
    (groupSizeLegal k = false ∧ t = raiseError (.illegalOperand 1) s) ∨
    (groupSizeLegal k = true ∧
      t = finish { s with flag := fitsFlag s.buf.len.toNat k s.hdrbits.toNat s.bitcnt.toNat }) := by
  unfold execFits at h
  cases hk : groupSizeLegal k <;>
    simp only [hk, Bool.not_false, Bool.not_true, if_true, Bool.false_eq_true, if_false] at h
  · exact .inl ⟨rfl, (next_inj h).symm⟩
  · exact .inr ⟨rfl, (next_inj h).symm⟩

end Sys2Proof.Machine
end

