-- ==== Sys2Proof/Laws/Loops.lean ====
section
/-! SUPPORT. One specification lemma for each loop of the commands: square-and-multiply (R120), trial division (R152), the prime search
(R153), the search for the public exponent (R135) and the extended Euclidean algorithm (R136). -/

namespace Sys2Proof.Machine

/-- `bitlen(v)` is the least `L` with `v < 2^L` (R8). -/
theorem lt_two_pow_bitlen (v : Nat) : v < 2 ^ bitlen v := by
  unfold bitlen
  split
  · rename_i h; simp [h]
  · exact Nat.lt_log2_self

/-- The square-and-multiply loop: if `r` is the residue for the exponent's bits above `i`, the loop ends in the residue for all. -/
theorem modexpLoop_spec (e bb n i r : Nat) (h : r = bb ^ (e / 2 ^ i) % n) : modexpLoop e bb n i r = bb ^ e % n := by
  induction i generalizing r with
  | zero => simpa [modexpLoop] using h
  | succ i ih =>
    simp only [modexpLoop]
    refine ih _ ?_
    have hs : e / 2 ^ i = 2 * (e / 2 ^ (i + 1)) + (e.testBit i).toNat := by
      rw [Nat.testBit_eq_decide_div_mod_eq, pow_succ, ← Nat.div_div_eq_div_mul]
      rcases Nat.mod_two_eq_zero_or_one (e / 2 ^ i) with h0 | h0 <;> simp [h0] <;> omega
    rw [hs, h]
    cases e.testBit i
    · simp only [Bool.false_eq_true, if_false, Bool.toNat_false, Nat.add_zero]
      rw [← Nat.mul_mod, ← pow_add, two_mul]
    · simp only [if_true, Bool.toNat_true]
      rw [← Nat.mul_mod, ← pow_add, ← two_mul, Nat.mod_mul_mod, ← pow_succ]

/-- Trial division from `d` up, with rounds enough to pass the square root. -/
theorem noOddDivisorFrom_spec (c fuel d : Nat) (hf : c < d + 2 * fuel) :
    noOddDivisorFrom c fuel d = true ↔ ∀ j, (d + 2 * j) * (d + 2 * j) ≤ c → ¬(d + 2 * j) ∣ c := by
  induction fuel generalizing d with
  | zero =>
    simp only [noOddDivisorFrom, true_iff]
    intro j hj hd
    have : d + 2 * j ≤ (d + 2 * j) * (d + 2 * j) := Nat.le_mul_self _
    omega
  | succ fuel ih =>
    simp only [noOddDivisorFrom]
    split
    · rename_i hle
      split
      · rename_i hdvd
        simp only [Bool.false_eq_true, false_iff, not_forall]
        exact ⟨0, by simpa using hle, by simpa using Nat.dvd_of_mod_eq_zero hdvd⟩
      · rename_i hdvd
        rw [ih (d + 2) (by omega)]
        constructor
        · intro h j
          rcases j with _ | j
          · intro _ hd; exact hdvd (Nat.mod_eq_zero_of_dvd (by simpa using hd))
          · have := h j
            rwa [show d + 2 + 2 * j = d + 2 * (j + 1) by ring] at this
        · intro h j
          have := h (j + 1)
          rwa [show d + 2 * (j + 1) = d + 2 + 2 * j by ring] at this
    · rename_i hle
      simp only [true_iff]
      intro j hj
      have : d * d ≤ (d + 2 * j) * (d + 2 * j) := Nat.mul_le_mul (by omega) (by omega)
      omega

/-- The prime search: the first acceptable candidate among the first `n` draws, or none of them. -/
theorem primeSearch_spec (b excl n : Nat) (s : Word32) :
    (∃ t < n,
      (∀ u < t, ¬(cand (draw^[u + 1] s).toNat b ≠ excl ∧ isPrime (cand (draw^[u + 1] s).toNat b) = true)) ∧
      (cand (draw^[t + 1] s).toNat b ≠ excl ∧ isPrime (cand (draw^[t + 1] s).toNat b) = true) ∧
      primeSearch b excl n s = (some (cand (draw^[t + 1] s).toNat b), draw^[t + 1] s)) ∨
    ((∀ u < n, ¬(cand (draw^[u + 1] s).toNat b ≠ excl ∧ isPrime (cand (draw^[u + 1] s).toNat b) = true)) ∧
      primeSearch b excl n s = (none, draw^[n] s)) := by
  induction n generalizing s with
  | zero => right; exact ⟨fun u hu => absurd hu (by omega), rfl⟩
  | succ n ih =>
    by_cases h : cand (draw s).toNat b ≠ excl ∧ isPrime (cand (draw s).toNat b) = true
    · left
      refine ⟨0, by omega, fun u hu => absurd hu (by omega), h, ?_⟩
      simp only [primeSearch]
      rw [if_pos h]
      rfl
    · have hstep : primeSearch b excl (n + 1) s = primeSearch b excl n (draw s) := by
        simp only [primeSearch]
        rw [if_neg h]
      have hu0 : ∀ m, (∀ u < m, ¬(cand (draw^[u + 1] (draw s)).toNat b ≠ excl ∧
          isPrime (cand (draw^[u + 1] (draw s)).toNat b) = true)) →
          ∀ u < m + 1, ¬(cand (draw^[u + 1] s).toNat b ≠ excl ∧ isPrime (cand (draw^[u + 1] s).toNat b) = true) := by
        intro m hm u hu
        rcases u with _ | u
        · exact h
        · exact hm u (by omega)
      rcases ih (draw s) with ⟨t, ht, hbefore, hthis, heq⟩ | ⟨hbefore, heq⟩
      · exact .inl ⟨t + 1, by omega, hu0 t hbefore, hthis, hstep.trans heq⟩
      · exact .inr ⟨hu0 n hbefore, hstep.trans heq⟩

/-- The search for the public exponent: what an exponent found is. -/
theorem chooseFrom_some_iff (phi n start e : Nat) : chooseFrom phi n start = some e ↔
    ∃ t < n, e = start + 2 * t ∧ e < phi ∧ Nat.gcd e phi = 1 ∧ ∀ u < t, Nat.gcd (start + 2 * u) phi ≠ 1 := by
  induction n generalizing start with
  | zero => simp [chooseFrom]
  | succ n ih =>
    simp only [chooseFrom]
    split
    · rename_i hle
      simp only [reduceCtorEq, false_iff]
      rintro ⟨t, -, he, hlt, -⟩
      omega
    · rename_i hle
      split
      · rename_i hg
        constructor
        · intro h
          injection h with h
          exact ⟨0, by omega, by omega, by omega, by rwa [← h], fun u hu => absurd hu (by omega)⟩
        · rintro ⟨t, -, he, -, -, hu⟩
          rcases t with _ | t
          · rw [he]; rfl
          · exact absurd (by simpa using hg) (hu 0 (by omega))
      · rename_i hg
        rw [ih]
        constructor
        · rintro ⟨t, ht, he, hlt, hg', hu⟩
          refine ⟨t + 1, by omega, by omega, hlt, hg', fun u hu' => ?_⟩
          rcases u with _ | u
          · simpa using hg
          · have := hu u (by omega)
            rwa [show start + 2 + 2 * u = start + 2 * (u + 1) by ring] at this
        · rintro ⟨t, ht, he, hlt, hg', hu⟩
          rcases t with _ | t
          · exact absurd (by rw [he] at hg'; simpa using hg') hg
          · refine ⟨t, by omega, by omega, hlt, hg', fun u hu' => ?_⟩
            have := hu (u + 1) (by omega)
            rwa [show start + 2 * (u + 1) = start + 2 + 2 * u by ring] at this

/-- The extended Euclidean loop keeps `t0 × e ≡ r0` and `t1 × e ≡ r1 (mod phi)`, so it ends in the gcd's coefficient. -/
theorem euclid_spec (phi : Int) (e : Int) (fuel r0 r1 : Nat) (t0 t1 : Int) (hf : r1 ≤ fuel)
    (h0 : t0 * e ≡ r0 [ZMOD phi]) (h1 : t1 * e ≡ r1 [ZMOD phi]) :
    euclid fuel r0 r1 t0 t1 * e ≡ (Nat.gcd r0 r1 : Nat) [ZMOD phi] := by
  induction fuel generalizing r0 r1 t0 t1 with
  | zero =>
    obtain rfl : r1 = 0 := by omega
    simpa [euclid] using h0
  | succ fuel ih =>
    simp only [euclid]
    split
    · rename_i hr; subst hr; simpa using h0
    · rename_i hr
      have hdiv : r0 - r0 / r1 * r1 = r0 % r1 := by
        have h := Nat.div_add_mod r0 r1
        rw [Nat.mul_comm] at h
        omega
      have hcast : ((r0 % r1 : Nat) : Int) = r0 - (r0 / r1 : Nat) * r1 := by
        have h := Nat.div_add_mod r0 r1
        have h' : (r1 : Int) * ((r0 / r1 : Nat) : Int) + ((r0 % r1 : Nat) : Int) = r0 := by exact_mod_cast h
        linarith
      have hgcd : Nat.gcd r0 r1 = Nat.gcd r1 (r0 % r1) := by
        rw [Nat.gcd_comm r1, ← Nat.gcd_rec r1 r0, Nat.gcd_comm]
      rw [hdiv, hgcd]
      refine ih r1 (r0 % r1) t1 _ ?_ h1 ?_
      · have := Nat.mod_lt r0 (Nat.pos_of_ne_zero hr)
        omega
      · rw [hcast, sub_mul, mul_assoc]
        exact h0.sub (h1.mul_left _)

end Sys2Proof.Machine
end

