-- ==== Sys2Proof/Laws/PerInstr.lean ====
section
/-! SUPPORT. Statements made per instruction. Family `Encoding`: the command word of a well-formed instruction, as a number, is its
opcode plus 256 times its immediate, with nothing lost to the word's width (spec/30_encoding.md R80 to R84). -/

namespace Sys2Proof.Laws

/-- The word of the instruction holds its opcode in bits 7:0 and its immediate in bits 15:8, and 0 above. -/
def Encoding.Statement (i : Instr) : Prop := i.wf = true → (encode i).toNat = i.opcode + 256 * i.imm8

/-- A number with fields that fit is not truncated. -/
theorem Encoding.ofNat_fields (op imm : Nat) (ho : op < 256) (hi : imm < 256) :
    (BitVec.ofNat 32 (op + 256 * imm)).toNat = op + 256 * imm := by
  rw [BitVec.toNat_ofNat]
  omega

theorem Encoding.nop : Encoding.Statement .nop := fun _ => Encoding.ofNat_fields _ 0 (by decide) (by decide)
theorem Encoding.clrerr : Encoding.Statement .clrerr := fun _ => Encoding.ofNat_fields _ 0 (by decide) (by decide)
theorem Encoding.srst : Encoding.Statement .srst := fun _ => Encoding.ofNat_fields _ 0 (by decide) (by decide)
theorem Encoding.modexp : Encoding.Statement .modexp := fun _ => Encoding.ofNat_fields _ 0 (by decide) (by decide)
theorem Encoding.encrypt : Encoding.Statement .encrypt := fun _ => Encoding.ofNat_fields _ 0 (by decide) (by decide)
theorem Encoding.decrypt : Encoding.Statement .decrypt := fun _ => Encoding.ofNat_fields _ 0 (by decide) (by decide)
theorem Encoding.keygen (b : Nat) : Encoding.Statement (.keygen b) := fun h =>
  Encoding.ofNat_fields _ b (by simp [Instr.opcode]) (of_decide_eq_true h)
theorem Encoding.ldint : Encoding.Statement .ldint := fun _ => Encoding.ofNat_fields _ 0 (by decide) (by decide)
theorem Encoding.stint : Encoding.Statement .stint := fun _ => Encoding.ofNat_fields _ 0 (by decide) (by decide)
theorem Encoding.primegen (b : Nat) : Encoding.Statement (.primegen b) := fun h =>
  Encoding.ofNat_fields _ b (by simp [Instr.opcode]) (of_decide_eq_true h)
theorem Encoding.ptest : Encoding.Statement .ptest := fun _ => Encoding.ofNat_fields _ 0 (by decide) (by decide)
theorem Encoding.pack (k : Nat) : Encoding.Statement (.pack k) := fun h =>
  Encoding.ofNat_fields _ k (by simp [Instr.opcode]) (of_decide_eq_true h)
theorem Encoding.unpack (k : Nat) : Encoding.Statement (.unpack k) := fun h =>
  Encoding.ofNat_fields _ k (by simp [Instr.opcode]) (of_decide_eq_true h)
theorem Encoding.fits (k : Nat) : Encoding.Statement (.fits k) := fun h =>
  Encoding.ofNat_fields _ k (by simp [Instr.opcode]) (of_decide_eq_true h)

end Sys2Proof.Laws
end

