-- ==== Sys2Proof/Laws/Window.lean ====
section
/-! SUPPORT. What the transactions of the busy window can do (R214), and what a step can do. -/

namespace Sys2Proof.Machine

/-- A transaction made while `BUSY = 1` changes only what the host has read and how many free values it has taken. -/
theorem busyAccess_cases (a : Access) (s : State) :
    ∃ rs n, busyAccess a s = { s with responses := s.responses ++ rs, freeIndex := n } := by
  cases a with
  | regRead r =>
    simp only [busyAccess]
    split
    · exact ⟨_, s.freeIndex, rfl⟩
    · exact ⟨_, _, rfl⟩
  | regWrite r v => exact ⟨[], s.freeIndex, by simp [busyAccess]⟩
  | memRead a => exact ⟨_, _, rfl⟩
  | memWrite a v => exact ⟨[], s.freeIndex, by simp [busyAccess]⟩

/-- So do the transactions of a whole window. -/
theorem runWindow_cases (w : List HostEvent) (s : State) :
    ∃ rs n, runWindow w s = { s with responses := rs, freeIndex := n } := by
  induction w generalizing s with
  | nil => exact ⟨s.responses, s.freeIndex, rfl⟩
  | cons e w ih =>
    obtain ⟨rs, n, h⟩ := busyAccess_cases e.access s
    obtain ⟨rs', n', h'⟩ := ih (busyAccess e.access s)
    exact ⟨rs', n', by rw [runWindow, h', h]⟩

/-- With no transaction in the window the command executes in the accepted state. -/
theorem duringCommand_noWindow (s : State) (h : noWindow s.script) : duringCommand s = acceptCommand s := by
  unfold duringCommand windowOf withoutWindow
  cases hs : s.script with
  | nil => cases s; simp_all [runWindow, acceptCommand]
  | cons e rest =>
    have he : e.inWindow = false := h e (by simp [hs])
    rw [List.takeWhile_cons_of_neg (by simp [he]), List.dropWhile_cons_of_neg (by simp [he]), ← hs]
    rfl

/-- The state in which an accepted command executes differs from the state before in the sequencer and in the model's own fields. -/
theorem duringCommand_cases (s : State) : ∃ l rs n,
    duringCommand s = { s with seq := .busy, script := l, responses := rs, freeIndex := n } := by
  obtain ⟨rs, n, h⟩ := runWindow_cases (windowOf s) (acceptCommand (withoutWindow s))
  exact ⟨_, rs, n, h⟩

/-- Everything a command write can do (R87). -/
theorem commandWrite_cases (w : Word32) (s t : State) (h : commandWrite w s = .next t) :
    t = s ∨ (s.seq = .failed ∧ exec .clrerr s = .next t) ∨ (s.seq = .failed ∧ exec .srst s = .next t) ∨
    ((s.seq = .idle ∨ s.seq = .done) ∧
      ((∃ i, decode w = .instr i ∧ exec i (duringCommand s) = .next t) ∨
       (∃ why, decode w = .illegal why ∧ t = raiseError (.illegalCommand w) (duringCommand s)))) := by
  have run : executeWord w s = .next t →
      (∃ i, decode w = .instr i ∧ exec i (duringCommand s) = .next t) ∨
       (∃ why, decode w = .illegal why ∧ t = raiseError (.illegalCommand w) (duringCommand s)) := by
    intro hx
    unfold executeWord at hx
    split at hx
    · rename_i i hi; exact .inl ⟨i, hi, hx⟩
    · rename_i why hi; exact .inr ⟨why, hi, by injection hx with hx; exact hx.symm⟩
  unfold commandWrite at h
  split at h
  · left; injection h with h; exact h.symm
  · rename_i hs
    split at h
    · exact .inr (.inl ⟨hs, h⟩)
    · split at h
      · exact .inr (.inr (.inl ⟨hs, h⟩))
      · left; injection h with h; exact h.symm
  · rename_i hs; exact .inr (.inr (.inr ⟨.inl hs, run h⟩))
  · rename_i hs; exact .inr (.inr (.inr ⟨.inr hs, run h⟩))

/-- Everything a host transaction can do (R40, R63, R87, R214). -/
theorem transact_cases (a : Access) (s t : State) (h : transact a s = .next t) :
    (∃ rs n, t = { s with responses := rs, freeIndex := n }) ∨ (∃ r v, s.seq ≠ .busy ∧ t = writeRegNum r v s) ∨
    (∃ b v, s.seq ≠ .busy ∧ t = { s with mem := s.mem.write b v }) ∨
    (∃ v, s.seq ≠ .busy ∧ a = .regWrite cmdNumber v ∧ commandWrite (truncWord v) s = .next t) := by
  unfold transact at h
  split at h
  · obtain ⟨rs, n, hb⟩ := busyAccess_cases a s
    injection h with h
    exact .inl ⟨s.responses ++ rs, n, by rw [← h, hb]⟩
  · rename_i hbusy
    cases a with
    | regRead r => injection h with h; exact .inl ⟨_, s.freeIndex, h.symm⟩
    | regWrite r v =>
      simp only at h
      split at h
      · rename_i hr; subst hr; exact .inr (.inr (.inr ⟨v, hbusy, rfl, h⟩))
      · injection h with h; exact .inr (.inl ⟨r, v, hbusy, h.symm⟩)
    | memRead a => injection h with h; exact .inl ⟨_, s.freeIndex, h.symm⟩
    | memWrite a v => injection h with h; exact .inr (.inr (.inl ⟨a.toNat, v, hbusy, h.symm⟩))

/-- Everything a step can do: nothing when the script is empty, else the transaction at its head. -/
theorem step_cases (s t : State) (h : step s = .next t) :
    (s.script = [] ∧ t = s) ∨ ∃ e rest, s.script = e :: rest ∧ transact e.access (s.popped rest) = .next t := by
  unfold step runNext at h
  split at h
  · rename_i hs; left; exact ⟨hs, by injection h with h; exact h.symm⟩
  · rename_i e rest hs; exact .inr ⟨e, rest, hs, h⟩

/-- The step that performs the transaction at the head of the script. -/
theorem step_cons (s : State) (e : HostEvent) (rest : List HostEvent) (h : s.script = e :: rest) :
    step s = transact e.access (s.popped rest) := by
  unfold step runNext
  rw [h]
  rfl

end Sys2Proof.Machine
end

