-- ==== Sys2Proof/Tests/Slice0.lean ====
section
/-! SUPPORT. Tests. Every expected result comes from spec/: the encodings of spec/30_encoding.md (R81 to R85, R92), the examples of the
commands' rules and the vectors V-… of spec/95_test_vectors.md. After them, for every obligation with hypotheses, a witness that meets
them, at the boundary values of its clauses. -/

namespace Sys2Proof.Tests

open Sys2Proof.Machine Sys2Proof.Claims

/-! ### Helpers -/

/-- A property of the next state, false of any other outcome. -/
def holdsAfter (o : Host.Outcome State Fault Refusal) (p : State → Bool) : Bool :=
  match o with
  | .next t => p t
  | .fault _ => false
  | .refused _ => false

/-- Done, without an error. -/
def isDone (t : State) : Bool := t.seq = .done && t.errcode = 0 && t.errinfo = 0

/-- Failed with a code and an information value. -/
def isFailed (code info : Nat) (t : State) : Bool :=
  t.seq = .failed && t.errcode.toNat = code && t.errinfo.toNat = info

/-- Memory that holds the given bytes from an address on. -/
def memAt : Nat → List Byte → Memory
  | _, [] => []
  | a, b :: bs => (a, b) :: memAt (a + 1) bs

/-- The bytes read from an address on. -/
def bytesAt (m : Memory) (a n : Nat) : List Byte := (List.range n).map (fun i => m.read (a + i))

/-- A register write of the host. -/
def write (r : RegNum) (v : Word) : HostEvent := { access := .regWrite r v, inWindow := false }

/-- The reset state with a script. -/
def scripted (es : List HostEvent) : State := { State.reset with script := es }

/-- A state with the `BUF` region at 0x100, the `DAT` region at 0x10, and their bytes. -/
def codecState (dat buf : List Byte) : State :=
  { State.reset with
    mem := memAt 0x10 dat ++ memAt 0x100 buf
    buf := { base := 0x100, len := BitVec.ofNat 32 buf.length }
    dat := { base := 0x10, len := BitVec.ofNat 32 dat.length } }

/-- A state with the two regions given by their registers, `BITCNT`, and no byte written. -/
def regionState (bufBase bufLen datBase datLen bitcnt : Word32) : State :=
  { State.reset with buf := { base := bufBase, len := bufLen }, dat := { base := datBase, len := datLen }, bitcnt := bitcnt }

/-! ### WellFormed refuses the ill-formed terms -/

theorem test_wf_refuses_keygen_256 : (Instr.keygen 256).wf = false := by decide
theorem test_wf_refuses_primegen_256 : (Instr.primegen 256).wf = false := by decide
theorem test_wf_refuses_pack_256 : (Instr.pack 256).wf = false := by decide
theorem test_wf_refuses_unpack_256 : (Instr.unpack 256).wf = false := by decide
theorem test_wf_refuses_fits_256 : (Instr.fits 256).wf = false := by decide

/-! ### Decoding, from words written out bit by bit (R81 to R83, R85, R92) -/

theorem test_decode_nop : decode 0b00000000000000000000000000000000#32 = .instr .nop := by decide
theorem test_decode_clrerr : decode 0b00000000000000000000000000000001#32 = .instr .clrerr := by decide
theorem test_decode_srst : decode 0b00000000000000000000000000000010#32 = .instr .srst := by decide
theorem test_decode_modexp : decode 0b00000000000000000000000000010000#32 = .instr .modexp := by decide
theorem test_decode_encrypt : decode 0b00000000000000000000000000100000#32 = .instr .encrypt := by decide
theorem test_decode_decrypt : decode 0b00000000000000000000000000100001#32 = .instr .decrypt := by decide
theorem test_decode_keygen : decode 0b00000000000000000001000000100010#32 = .instr (.keygen 16) := by decide
theorem test_decode_ldint : decode 0b00000000000000000000000000100011#32 = .instr .ldint := by decide
theorem test_decode_stint : decode 0b00000000000000000000000000100100#32 = .instr .stint := by decide
theorem test_decode_primegen : decode 0b00000000000000000010000000110000#32 = .instr (.primegen 32) := by decide
theorem test_decode_ptest : decode 0b00000000000000000000000000110001#32 = .instr .ptest := by decide
theorem test_decode_pack : decode 0b00000000000000000000001101000000#32 = .instr (.pack 3) := by decide
theorem test_decode_unpack : decode 0b00000000000000000000000101000001#32 = .instr (.unpack 1) := by decide
theorem test_decode_fits : decode 0b00000000000000000000010001000010#32 = .instr (.fits 4) := by decide

/-- The illegal words of R92 and V-E11, each with its reason in R86. -/
theorem test_decode_illegal :
    decode 0x00010010#32 = .illegal .zeroField ∧ decode 0x00000110#32 = .illegal .immediate ∧
    decode 0x00000003#32 = .illegal .opcode ∧ decode 0xFFFFFFFF#32 = .illegal .zeroField := by decide

/-- The rows of R85: mask and match. -/
def rows : List (Word32 × Word32) :=
  [(0xFFFFFFFF#32, 0x00#32), (0xFFFFFFFF#32, 0x01#32), (0xFFFFFFFF#32, 0x02#32), (0xFFFFFFFF#32, 0x10#32),
   (0xFFFFFFFF#32, 0x20#32), (0xFFFFFFFF#32, 0x21#32), (0xFFFF00FF#32, 0x22#32)] ++
  [(0xFFFFFFFF#32, 0x23#32), (0xFFFFFFFF#32, 0x24#32), (0xFFFF00FF#32, 0x30#32), (0xFFFFFFFF#32, 0x31#32),
   (0xFFFF00FF#32, 0x40#32), (0xFFFF00FF#32, 0x41#32), (0xFFFF00FF#32, 0x42#32)]

/-- No word matches two rows of the opcode table. -/
theorem test_rows_do_not_overlap : rows.Pairwise (fun a b => (a.2 ^^^ b.2) &&& a.1 &&& b.1 ≠ 0#32) := by decide

theorem test_decodeTableWord : decodeTableWord 32 0x00000340 = some (.pack 3) ∧ decodeTableWord 32 0x00000110 = none ∧
    decodeTableWord 40 0x00000010 = none := by decide

/-! ### The ports, acceptance and the busy window -/

/-- V-E15: the command word is the low 32 bits of the data; V-M18: with `OPC = 0` it fails with 7, 8. -/
theorem test_cmd_truncates : holdsAfter (step (scripted [write 0x10 0x0000000100000010#64])) (isFailed 7 8) = true := by decide

/-- V-E9: `MODEXP` with an immediate is illegal, and `ERRINFO` is the word. -/
theorem test_illegal_word : holdsAfter (step (scripted [write 0x10 0x00000110#64])) (isFailed 6 0x110) = true := by decide

/-- R194: in failed a command is dropped, and a register write works. -/
theorem test_failed_drops : holdsAfter (step { (scripted [write 0x10 0#64]).failedWith 7 8 with prng := 5#32 })
    (fun t => isFailed 7 8 t && t.prng = 5) = true := by decide
theorem test_failed_writes : holdsAfter (step ((scripted [write 0x00 9#64]).failedWith 7 8))
    (fun t => isFailed 7 8 t && t.opa = 9) = true := by decide

/-- R214: in the window `STATUS` reads 1 plus the old `FLAG` times 8 and a write is dropped; the command is not disturbed. -/
theorem test_busy_window : holdsAfter
    (step { scripted [write 0x10 0x31#64, { access := .regWrite 0x00 9#64, inWindow := true },
      { access := .regRead 0x11, inWindow := true }, write 0x01 5#64] with flag := true, opa := 4#64 })
    (fun t => isDone t && t.flag = false && t.opa = 4 && t.responses = [.word 9#64] && t.script.length = 1) = true := by decide

/-- R61: a read past the end of memory returns 0. -/
theorem test_read_past_memory : holdsAfter (step (scripted [{ access := .memRead 0x100000#32, inWindow := false }]))
    (fun t => t.responses = [.byte 0]) = true := by decide

/-- R43, R42: a write to a 32-bit register is truncated; an unimplemented register reads 0. -/
theorem test_register_width : readRegNum 0x17 (writeRegNum 0x17 0x1FFFFFFFF#64 State.reset) = 0xFFFFFFFF#64 ∧
    readRegNum 0x0A (writeRegNum 0x0A 7#64 State.reset) = 0#64 := by decide

/-- The word placed by `withFetchWord` is the first command that runs. -/
theorem test_withFetchWord : holdsAfter (step (State.reset.withFetchWord 32 0x31)) (fun t => isDone t && t.flag = false) = true := by
  decide

/-! ### One step of each command -/

/-- R170's example: from idle, `NOP` gives `STATUS = 0x00000002`. -/
theorem test_nop : holdsAfter (step (scripted [write 0x10 0#64])) (fun t => readRegNum 0x11 t = 2#64) = true := by decide

/-- R171's example. -/
theorem test_clrerr : holdsAfter (step ((scripted [write 0x10 1#64]).failedWith 1 6))
    (fun t => isDone t && readRegNum 0x11 t = 2#64) = true := by decide

/-- R172's example, in the failed state. -/
theorem test_srst : holdsAfter (step { (scripted [write 0x10 2#64]).failedWith 1 6 with prng := 7#32, flag := true, mem := [(3, 4)] })
    (fun t => readRegNum 0x11 t = 0#64 && t.prng = 1 && t.errcode = 0 && t.mem = [(3, 4)]) = true := by decide

/-- V-M1. -/
theorem test_modexp : holdsAfter (exec .modexp { State.reset with opa := 4, opb := 13, opc := 497 })
    (fun t => isDone t && t.res = 445) = true := by decide

/-- V-M15: the square `2^126` is formed exactly. -/
theorem test_modexp_wide : holdsAfter
    (exec .modexp { State.reset with opa := 0x8000000000000000#64, opb := 2, opc := 0xFFFFFFFFFFFFFFFF#64 })
    (fun t => isDone t && t.res = 4611686018427387904#64) = true := by decide

/-- V-R1. -/
theorem test_encrypt : holdsAfter (exec .encrypt { State.reset with opa := 42, keys := { KeyRegs.zero with n := 143, e := 7 } })
    (fun t => isDone t && t.res = 81) = true := by decide

/-- V-R6: a message equal to the modulus is too large. -/
theorem test_encrypt_too_large : holdsAfter
    (exec .encrypt { State.reset with opa := 143, res := 5, keys := { KeyRegs.zero with n := 143, e := 7 } })
    (fun t => isFailed 3 0 t && t.res = 5) = true := by decide

/-- V-R2. -/
theorem test_decrypt : holdsAfter (exec .decrypt { State.reset with opa := 81, keys := { KeyRegs.zero with n := 143, d := 103 } })
    (fun t => isDone t && t.res = 42) = true := by decide

/-- V-R8: no range check on the cipher integer. -/
theorem test_decrypt_large : holdsAfter (exec .decrypt { State.reset with opa := 224, keys := { KeyRegs.zero with n := 143, d := 103 } })
    (fun t => isDone t && t.res = 42) = true := by decide

/-- R134's example. -/
theorem test_keygen : holdsAfter (exec (.keygen 4) State.reset)
    (fun t => isDone t && t.prng = 0x25B2331A#32 && t.keys = { n := 143, e := 7, d := 103, p := 13, q := 11, phi := 120 }) = true := by
  decide +kernel

/-- R134: `KEYGEN 2` always ends in `KeyGenerationError(2)`, its keys cleared. -/
theorem test_keygen_two : holdsAfter (exec (.keygen 2) { State.reset with keys := { KeyRegs.zero with n := 77 } })
    (fun t => isFailed 2 2 t && t.keys = KeyRegs.zero) = true := by decide +kernel

/-- V-R20. -/
theorem test_ldint : holdsAfter (exec .ldint (codecState [0x48#8, 0x49#8] [])) (fun t => isDone t && t.opa = 18505#64) = true := by
  decide

/-- V-R24. -/
theorem test_ldint_long : holdsAfter (exec .ldint (regionState 0 0 0x10 9 0)) (isFailed 7 6) = true := by decide

/-- R141's example. -/
theorem test_stint : holdsAfter (exec .stint { regionState 0 0 0x10 4 0 with res := 233957373#64 })
    (fun t => isDone t && t.mem = [(0x10, 0x0D#8), (0x11, 0xF1#8), (0x12, 0xE7#8), (0x13, 0xFD#8)]) = true := by decide

/-- R141's example: the value does not fit three bytes. -/
theorem test_stint_short : holdsAfter (exec .stint { regionState 0 0 0x10 3 0 with res := 233957373#64 })
    (fun t => isFailed 7 7 t && t.mem = []) = true := by decide

/-- R154's example. -/
theorem test_primegen : holdsAfter (exec (.primegen 8) State.reset)
    (fun t => isDone t && t.res = 197#64 && t.prng = 0x9DCCA8C5#32) = true := by decide +kernel

/-- R157: with `PRNG = 0` the search for four bits is exhausted. -/
theorem test_primegen_zero : holdsAfter (exec (.primegen 4) { State.reset with prng := 0#32 }) (isFailed 2 1) = true := by
  decide +kernel

/-- R155's example: 65521 is prime. -/
theorem test_ptest : holdsAfter (exec .ptest { State.reset with opa := 65521#64 }) (fun t => isDone t && t.flag) = true := by
  decide +kernel

/-- R155: an operand of more than 32 bits. -/
theorem test_ptest_large : holdsAfter (exec .ptest { State.reset with opa := 4294967296#64, flag := true })
    (fun t => isFailed 7 10 t && t.flag) = true := by decide

/-- V-C3: groups of three bits, the last one filled with zeros. -/
theorem test_pack : holdsAfter (exec (.pack 3) (codecState [0x48#8, 0x49#8] (List.replicate 8 0xFF#8)))
    (fun t => isDone t && bytesAt t.mem 0x100 8 = [0xFA#8, 0xFA#8, 0xF8#8, 0xFC#8, 0xFC#8, 0xFC#8, 0xFF#8, 0xFF#8]) = true := by
  decide +kernel

/-- V-C14: one byte over the capacity. -/
theorem test_pack_over : holdsAfter (exec (.pack 4) (codecState [0x12#8, 0x34#8, 0x56#8] (List.replicate 5 0xFF#8)))
    (fun t => isFailed 1 6 t && bytesAt t.mem 0x100 5 = List.replicate 5 0xFF#8) = true := by decide +kernel

/-- V-C11: five bits, zero-padded; the bytes after them are kept. -/
theorem test_unpack : holdsAfter
    (exec (.unpack 3) { codecState [0x55#8, 0x55#8, 0x55#8] [0xA5#8, 0xA5#8, 0xA6#8, 0xA3#8] with bitcnt := 5#32 })
    (fun t => isDone t && bytesAt t.mem 0x10 3 = [0xB0#8, 0x55#8, 0x55#8]) = true := by decide +kernel

/-- V-C38: more slots than the buffer has. -/
theorem test_unpack_over : holdsAfter (exec (.unpack 1) (regionState 0 16 0x100 3 17)) (isFailed 5 17) = true := by decide

/-- V-C25: no wrap. -/
theorem test_fits : holdsAfter
    (exec (.fits 4) { regionState 0 0xFFFFFFFF#32 0 0 0xFFFFFFFF#32 with hdrbits := 0xFFFFFFFF#32 })
    (fun t => isDone t && t.flag) = true := by decide

/-- V-C26: two bits short. -/
theorem test_fits_not : holdsAfter
    (exec (.fits 4) { regionState 0 0x7FFFFFFF#32 0 0 0xFFFFFFFF#32 with hdrbits := 0xFFFFFFFF#32, flag := true })
    (fun t => isDone t && !t.flag) = true := by decide

/-- V-C32, V-C33, V-C31, V-C34: the region checks in their order, and empty regions at the end of memory. -/
theorem test_region_checks :
    holdsAfter (exec (.pack 1) (regionState 0xFFFFF 2 0xFFFFFFFF 0xFFFFFFFF 0)) (isFailed 7 3) = true ∧
    holdsAfter (exec (.pack 1) (regionState 0xFFFFF 1 0xFFFFFFFF 1 0)) (isFailed 7 4) = true ∧
    holdsAfter (exec (.pack 1) (regionState 0x10 8 0x14 8 0)) (isFailed 7 5) = true ∧
    holdsAfter (exec (.pack 1) (regionState 0x100000 0 0x100000 0 0)) isDone = true := by decide

/-! ### Witnesses: for every obligation with hypotheses, states and operands that meet them -/

/-- A next state with a property, from a computation. -/
theorem next_with (o : Host.Outcome State Fault Refusal) (p : State → Prop) [DecidablePred p]
    (h : holdsAfter o (fun t => decide (p t)) = true) : ∃ t, o = .next t ∧ p t := by
  cases o with
  | next t => exact ⟨t, rfl, of_decide_eq_true h⟩
  | fault r => cases h
  | refused r => cases h

theorem noWindow_nil : noWindow [] := by simp [noWindow]

theorem noWindow_write (r : RegNum) (v : Word) (es : List HostEvent) : noWindow (write r v :: es) := by simp [noWindow, write]

/-- The hypotheses on a step that presents a command word: idle, done, failed, and (for R87) busy. -/
theorem witness_command_write (v : Word) (q : Sequencer) :
    ∃ (s : State) (e : HostEvent) (rest : List HostEvent),
      s.script = e :: rest ∧ noWindow rest ∧ s.seq = q ∧ e.access = .regWrite 0x10 v :=
  ⟨{ scripted [write 0x10 v, write 0x00 1#64] with seq := q }, _, _, rfl, noWindow_write _ _ _, rfl, rfl⟩

theorem witness_DecodeOfEncodeIsTheInstruction :
    (Instr.nop).wf = true ∧ (Instr.keygen 0).wf = true ∧ (Instr.keygen 255).wf = true ∧ (Instr.fits 255).wf = true := by decide

theorem witness_IllegalWordsRaiseIllegalCommand :
    ∃ (s : State) (e : HostEvent) (rest : List HostEvent) (v : Word) (why : IllegalWord),
      s.script = e :: rest ∧ noWindow rest ∧ accepting s ∧ e.access = .regWrite 0x10 v ∧ decode (v.setWidth 32) = .illegal why :=
  ⟨scripted [write 0x10 3#64], _, _, 3#64, .opcode, rfl, noWindow_nil, .inl rfl, rfl, by decide⟩

theorem witness_StepRunsTheDecodedCommand :
    ∃ (s : State) (e : HostEvent) (rest : List HostEvent) (v : Word) (i : Instr),
      s.script = e :: rest ∧ accepting s ∧ e.access = .regWrite 0x10 v ∧ decode (v.setWidth 32) = .instr i ∧
      rest.takeWhile (fun x => x.inWindow) ≠ [] :=
  ⟨scripted [write 0x10 0x340#64, { access := .regRead 0x11, inWindow := true }], _, _, 0x340#64, .pack 3, rfl, .inl rfl, rfl,
    by decide, by decide⟩

/-- With `witness_command_write`: the words of each case of R87. -/
theorem witness_CommandAcceptance :
    (1#64).setWidth 32 = 0x00000001#32 ∧ (2#64).setWidth 32 = 0x00000002#32 ∧
    ((3#64).setWidth 32 ≠ 0x00000001#32 ∧ (3#64).setWidth 32 ≠ 0x00000002#32) ∧
    decode ((0#64).setWidth 32) = .instr .nop ∧ decode ((3#64).setWidth 32) = .illegal .opcode ∧
    ∃ t, exec .srst State.reset = .next t := by
  refine ⟨?_, ?_, ?_, ?_, ?_, _, rfl⟩ <;> decide

theorem witness_FailedDropsCommandsAndServesPorts (a : Access) :
    ∃ (s : State) (e : HostEvent) (rest : List HostEvent), s.script = e :: rest ∧ s.seq = .failed ∧ e.access = a :=
  ⟨(scripted [{ access := a, inWindow := false }]).failedWith 7 8, _, _, rfl, rfl, rfl⟩

theorem witness_FailedDropsCommandsAndServesPorts_words :
    (0#64).toNat % 2 ^ 32 ≠ 1 ∧ (0#64).toNat % 2 ^ 32 ≠ 2 ∧ (3#64).toNat % 2 ^ 32 ≠ 1 ∧ (3#64).toNat % 2 ^ 32 ≠ 2 ∧
    (0x00 : RegNum) ≠ 0x10 := by decide

theorem witness_BusyWindowDisturbsNothing :
    ∃ (s : State) (e : HostEvent) (rest : List HostEvent) (v : Word) (window : List HostEvent),
      accepting s ∧ e.access = .regWrite 0x10 v ∧ noWindow rest ∧ window ≠ [] ∧ ∀ x ∈ window, x.inWindow = true :=
  ⟨{ State.reset with seq := .done }, write 0x10 0x31#64, [write 0x00 1#64], 0x31#64,
    [{ access := .regRead 0x11, inWindow := true }, { access := .memWrite 5 6, inWindow := true }],
    .inr rfl, rfl, noWindow_write _ _ _, by decide, by decide⟩

theorem witness_PollingHostTakesNoFreeValue :
    ∃ s t : State, s.seq ≠ .busy ∧ s.hostPolls ∧ step s = .next t ∧ t.seq = .done := by
  obtain ⟨t, ht, hd⟩ := next_with
    (step (scripted [write 0x10 0#64, { access := .regRead 0x11, inWindow := true }])) (fun t => t.seq = .done) (by decide)
  exact ⟨_, t, by decide, by simp [State.hostPolls, scripted, write, statusNumber], ht, hd⟩

theorem witness_PortTransactionsWhenNotBusy (a : Access) :
    ∃ (s : State) (e : HostEvent) (rest : List HostEvent), s.script = e :: rest ∧ s.seq ≠ .busy ∧ e.access = a :=
  ⟨scripted [{ access := a, inWindow := false }], _, _, rfl, by simp [scripted, State.reset], rfl⟩

/-- The last address that storage backs, and the first that none does. -/
theorem witness_memory_boundary : (0xFFFFF#32).toNat < Config.memSize ∧ Config.memSize ≤ (0x100000#32).toNat := by decide

theorem witness_RegisterWriteThenRead :
    (0x00 : RegNum) ∈ wideRegs ∧ (0x09 : RegNum) ∈ wideRegs ∧ (0x14 : RegNum) ∈ narrowRegs ∧ (0x1B : RegNum) ∈ narrowRegs ∧
    (0x11 : RegNum) ∉ wideRegs ++ narrowRegs ∧
    ((0x10 : RegNum) ∉ wideRegs ++ narrowRegs ∧ (0x10 : RegNum) ∉ [0x11, 0x12, 0x13]) ∧
    ((0x3F : RegNum) ∉ wideRegs ++ narrowRegs ∧ (0x3F : RegNum) ∉ [0x11, 0x12, 0x13]) ∧ (0x01 : RegNum) ≠ 0x00 := by decide

theorem witness_ResetValues : 0 < Config.memSize ∧ 0xFFFFF < Config.memSize := by decide

/-- With `witness_command_write`: the words of `SrstResetsEveryRegister`, `ClrerrAcknowledgesTheError`, `NopOnlySetsDone`. -/
theorem witness_system_words :
    (2#64).toNat % 2 ^ 32 = 2 ∧ (1#64).toNat % 2 ^ 32 = 1 ∧ (0#64).toNat % 2 ^ 32 = 0 ∧ Sequencer.idle ≠ .busy ∧
    Sequencer.done ≠ .busy ∧ Sequencer.failed ≠ .busy := by decide

/-- `FailedCommandsAreAllOrNothing`, `EachCommandRaisesItsOwnErrors`: a failing command of each kind. -/
theorem witness_failing_commands :
    (∃ t, exec .modexp State.reset = .next t ∧ t.seq = .failed) ∧
    (∃ t, exec (.keygen 1) State.reset = .next t ∧ t.seq = .failed ∧ t.errcode = 7) ∧
    (∃ t, exec (.keygen 2) { State.reset with prng := 0#32 } = .next t ∧ t.seq = .failed ∧ t.errcode = 2) ∧
    (∃ t, exec (.primegen 33) State.reset = .next t ∧ t.seq = .failed ∧ t.errcode = 7) ∧
    (∃ t, exec (.primegen 4) { State.reset with prng := 0#32 } = .next t ∧ t.seq = .failed ∧ t.errcode = 2) ∧
    (∃ t, exec (.pack 1) (regionState 0 16 0x100 0x80000 0) = .next t ∧ t.seq = .failed ∧ t.errcode = 1) ∧
    ∃ t, exec (.unpack 4) (regionState 0 16 0x100 9 65) = .next t ∧ t.seq = .failed ∧ t.errcode = 5 :=
  ⟨next_with _ _ (by decide), next_with _ _ (by decide), next_with _ _ (by decide +kernel), next_with _ _ (by decide),
    next_with _ _ (by decide +kernel), next_with _ _ (by decide), next_with _ _ (by decide)⟩

theorem witness_CommandsWriteOnlyTheirRegisters :
    Instr.ptest ≠ .srst ∧ Instr.ptest ≠ .clrerr ∧ ∃ t, exec .ptest State.reset = .next t ∧ t.seq = .done :=
  ⟨by decide, by decide, next_with _ _ (by decide)⟩

/-- Addresses just below and just past the region, and the first address without storage. -/
theorem witness_StoresStayInTheirRegion :
    (∃ t, exec (.pack 4) (codecState [0x48#8] [0xFF#8, 0xFF#8]) = .next t ∧ t.seq = .done) ∧
    (∃ t, exec (.unpack 4) { codecState [0x48#8] [0xFF#8, 0xFF#8] with bitcnt := 8 } = .next t ∧ t.seq = .done) ∧
    (∃ t, exec .stint (regionState 0 0 0x10 8 0) = .next t ∧ t.seq = .done) ∧
    ¬within 0x100 2 0xFF ∧ ¬within 0x100 2 0x102 ∧ Config.memSize ≤ 0x100000 := by
  refine ⟨next_with _ _ (by decide +kernel), next_with _ _ (by decide +kernel), next_with _ _ (by decide +kernel), ?_, ?_, ?_⟩
  · show ¬(_ ≤ _ ∧ _ < _); decide
  · show ¬(_ ≤ _ ∧ _ < _); decide
  · decide

theorem witness_ModexpIsThePowerResidue : ∃ e n : Nat, 1 ≤ n ∧ 2 ≤ n ∧ 1 ≤ e := ⟨1, 2, by decide⟩

theorem witness_ModexpCommand :
    (State.reset.opc.toNat = 0) ∧ ({ State.reset with opc := 1#64 } : State).opc.toNat ≠ 0 := by decide

theorem witness_EncryptCommand :
    State.reset.keys.n.toNat = 0 ∧
    (∃ s : State, s.keys.n.toNat ≠ 0 ∧ s.keys.n.toNat = s.opa.toNat) ∧ ∃ s : State, s.opa.toNat + 1 = s.keys.n.toNat :=
  ⟨by decide, ⟨{ State.reset with opa := 143, keys := { KeyRegs.zero with n := 143 } }, by decide⟩,
    ⟨{ State.reset with opa := 142, keys := { KeyRegs.zero with n := 143 } }, by decide⟩⟩

theorem witness_DecryptCommand : State.reset.keys.n.toNat = 0 ∧
    ({ State.reset with keys := { KeyRegs.zero with n := 1 } } : State).keys.n.toNat ≠ 0 := by decide

/-- The key of R134's example and its greatest message; the key of a successful `KEYGEN`. -/
theorem witness_RsaRoundTrip :
    (∃ (s : State) (p q : Nat), p.Prime ∧ q.Prime ∧ p ≠ q ∧ s.keys.n.toNat = p * q ∧
      s.keys.e.toNat * s.keys.d.toNat ≡ 1 [MOD (p - 1) * (q - 1)] ∧ s.opa.toNat + 1 = s.keys.n.toNat) ∧
    ∃ k, exec (.keygen 4) State.reset = .next k ∧ k.seq = .done ∧ (142#64).toNat < k.keys.n.toNat :=
  ⟨⟨{ State.reset with opa := 142, keys := { KeyRegs.zero with n := 143, e := 7, d := 103 } }, 13, 11, by norm_num, by norm_num,
    by decide, by decide, by decide, by decide⟩, next_with _ _ (by decide +kernel)⟩

/-- Both starts, at the boundary, and both answers (R134's example for `some`). -/
theorem witness_PublicExponentChoice :
    (3 = if 65537 < 65537 then 65537 else 3) ∧ (65537 = if 65537 < 65538 then 65537 else 3) ∧
    chooseE 120 = some 7 ∧ chooseE 2 = none := by decide +kernel

theorem witness_PublicExponentIsAlwaysFound :
    (4 % 2 = 0 ∧ 4 ≤ 4 ∧ 4 < 2 ^ 64) ∧ ((2 ^ 64 - 2) % 2 = 0 ∧ 4 ≤ 2 ^ 64 - 2 ∧ 2 ^ 64 - 2 < 2 ^ 64) ∧
    ∃ t, exec (.keygen 2) { State.reset with prng := 0#32 } = .next t ∧ t.seq = .failed :=
  ⟨by decide, by decide, next_with _ _ (by decide +kernel)⟩

theorem witness_PrivateExponentIsTheInverse :
    (0 < 1 ∧ 1 < 2 ∧ Nat.gcd 1 2 = 1) ∧ (0 < 7 ∧ 7 < 120 ∧ Nat.gcd 7 120 = 1 ∧ 0 < 103 ∧ 103 < 120 ∧ 7 * 103 % 120 = 1) := by decide

/-- `KeygenCommand`, `PrimegenCommand`, `CandidateFormation`, `PrimeSearchIsBounded`: the bounds of the size. -/
theorem witness_prime_sizes :
    ¬(2 ≤ 1 ∧ 1 ≤ 32) ∧ ¬(2 ≤ 33 ∧ 33 ≤ 32) ∧ (2 ≤ 2 ∧ 2 ≤ 32) ∧ (2 ≤ 32 ∧ 32 ≤ 32) ∧ (0 < 1 ∧ 1 < 4 - 1) := by decide

/-- `KeygenCommand`, `PrimegenCommand`: a search that fails, one that succeeds and then fails, two that succeed. -/
theorem witness_searches :
    primeSearch 4 0 1024 0#32 = (none, 0#32) ∧
    (primeSearch 2 0 1024 0#32 = (some 3, 0#32) ∧ primeSearch 2 3 1024 0#32 = (none, 0#32)) ∧
    primeSearch 4 0 1024 1#32 = (some 13, 0x9DCCA8C5#32) ∧ primeSearch 4 13 1024 0x9DCCA8C5#32 = (some 11, 0x25B2331A#32) := by
  decide +kernel

theorem witness_KeygenGuarantee : ∃ t, exec (.keygen 4) State.reset = .next t ∧ t.seq = .done := next_with _ _ (by decide +kernel)

theorem witness_SizedPayloadIsEncrypted :
    ∃ (k u : State), exec (.keygen 5) State.reset = .next k ∧ k.seq = .done ∧ u.keys = k.keys ∧ insideMemory u.dat ∧
      8 * u.dat.len.toNat = 2 * 5 - 2 := by
  obtain ⟨k, hk, hd⟩ := next_with (exec (.keygen 5) State.reset) (fun t => t.seq = .done) (by decide +kernel)
  exact ⟨k, { k with dat := { base := 0xFFFFF, len := 1 } }, hk, hd, rfl,
    by show (0xFFFFF#32).toNat + (1#32).toNat ≤ Config.memSize; decide, rfl⟩

/-- `LdintCommand`, `StintCommand`, `IntegerAndBytesAreInverse`: a region one byte too far, one byte too long, and the longest. -/
theorem witness_int_regions :
    ¬insideMemory { base := 0x100000, len := 1 } ∧ (insideMemory { base := 0xFFFF7, len := 9 } ∧ 8 < (9#32).toNat) ∧
    insideMemory { base := 0xFFFF8, len := 8 } ∧ (8#32).toNat ≤ 8 ∧ 256 ^ (1#32).toNat ≤ (256#64).toNat ∧
    (255#64).toNat < 256 ^ (1#32).toNat := by
  refine ⟨?_, ⟨?_, by decide⟩, ?_, by decide, by decide, by decide⟩
  · show ¬(_ ≤ _); decide
  · show _ ≤ _; decide
  · show _ ≤ _; decide

theorem witness_PtestCommand : 2 ^ 32 ≤ (4294967296#64).toNat ∧ (4294967295#64).toNat < 2 ^ 32 := by decide

theorem witness_ZeroPrngOutcomes :
    (1#32 ≠ 0) ∧ ({ State.reset with prng := 0 } : State).prng = 0 ∧ 2 ∈ [2, 3, 5, 9, 17] ∧ 17 ∈ [2, 3, 5, 9, 17] ∧
    4 ∉ [2, 3, 5, 9, 17] ∧ 32 ∉ [2, 3, 5, 9, 17] := by decide

/-- `CodecOperandChecks`, `FitsCommand`: each check fails while those before it pass. -/
theorem witness_CodecOperandChecks :
    ¬(1 ≤ 0 ∧ 0 ≤ 4) ∧ ¬(1 ≤ 5 ∧ 5 ≤ 4) ∧ (1 ≤ 1 ∧ 1 ≤ 4) ∧ (1 ≤ 4 ∧ 4 ≤ 4) ∧
    ¬insideMemory { base := 0x100001, len := 0 } ∧ insideMemory { base := 0x100000, len := 0 } ∧
    overlap { base := 0x10, len := 8 } { base := 0x17, len := 1 } ∧ ¬overlap { base := 0x10, len := 8 } { base := 0x18, len := 1 } := by
  refine ⟨by decide, by decide, by decide, by decide, ?_, ?_, ?_, ?_⟩
  · show ¬(_ ≤ _); decide
  · show _ ≤ _; decide
  · show _ ∧ _ ∧ _ ∧ _; decide
  · show ¬(_ ∧ _ ∧ _ ∧ _); decide

/-- `PackCommand`, `CapacityBoundaryIsExact`: exactly at capacity and one slot short, with regions that touch. -/
theorem witness_PackCommand :
    ∃ s u : State, (insideMemory s.buf ∧ insideMemory s.dat ∧ ¬overlap s.buf s.dat ∧
        (8 * s.dat.len.toNat + 3 - 1) / 3 = s.buf.len.toNat) ∧
      insideMemory u.buf ∧ insideMemory u.dat ∧ ¬overlap u.buf u.dat ∧
        u.buf.len.toNat + 1 = (8 * u.dat.len.toNat + 3 - 1) / 3 := by
  refine ⟨regionState 0x10 6 0x16 2 0, regionState 0x10 5 0x15 2 0, ⟨?_, ?_, ?_, by decide⟩, ?_, ?_, ?_, by decide⟩
  · show _ ≤ _; decide
  · show _ ≤ _; decide
  · show ¬(_ ∧ _ ∧ _ ∧ _); decide
  · show _ ≤ _; decide
  · show _ ≤ _; decide
  · show ¬(_ ∧ _ ∧ _ ∧ _); decide

/-- `UnpackCommand`: no room for the output (V-C37), one slot short, and exactly the buffer (V-C39). -/
theorem witness_UnpackCommand :
    ∃ s u v : State,
      (insideMemory s.buf ∧ insideMemory s.dat ∧ ¬overlap s.buf s.dat ∧ s.dat.len.toNat < (s.bitcnt.toNat + 7) / 8) ∧
      (insideMemory u.buf ∧ insideMemory u.dat ∧ ¬overlap u.buf u.dat ∧ (u.bitcnt.toNat + 7) / 8 ≤ u.dat.len.toNat ∧
        u.buf.len.toNat + 1 = (u.bitcnt.toNat + 4 - 1) / 4) ∧
      insideMemory v.buf ∧ insideMemory v.dat ∧ ¬overlap v.buf v.dat ∧ (v.bitcnt.toNat + 7) / 8 = v.dat.len.toNat ∧
        (v.bitcnt.toNat + 4 - 1) / 4 = v.buf.len.toNat := by
  refine ⟨regionState 0 16 0x100 2 17, regionState 0 16 0x100 9 65, regionState 0 16 0x100 8 64,
    ⟨?_, ?_, ?_, by decide⟩, ⟨?_, ?_, ?_, by decide, by decide⟩, ?_, ?_, ?_, by decide, by decide⟩
  · show _ ≤ _; decide
  · show _ ≤ _; decide
  · show ¬(_ ∧ _ ∧ _ ∧ _); decide
  · show _ ≤ _; decide
  · show _ ≤ _; decide
  · show ¬(_ ∧ _ ∧ _ ∧ _); decide
  · show _ ≤ _; decide
  · show _ ≤ _; decide
  · show ¬(_ ∧ _ ∧ _ ∧ _); decide

theorem witness_CodecRoundTrip :
    ∃ (s t : State) (d : Region), exec (.pack 3) s = .next t ∧ t.seq = .done ∧ insideMemory d ∧ ¬overlap s.buf d ∧
      s.dat.len.toNat = d.len.toNat ∧ s.dat.len.toNat ≠ 0 := by
  obtain ⟨t, ht, hd⟩ := next_with (exec (.pack 3) (codecState [0x48#8, 0x49#8] (List.replicate 6 0xFF#8)))
    (fun t => t.seq = .done) (by decide +kernel)
  refine ⟨_, t, { base := 0xFFFFE, len := 2 }, ht, hd, ?_, ?_, by decide, by decide⟩
  · show _ ≤ _; decide
  · show ¬(_ ∧ _ ∧ _ ∧ _); decide

/-- `StepKeepsTheInvariant`: a state other than the reset state, in the failed state and with a byte written. -/
theorem witness_StepKeepsTheInvariant : ∃ s t : State, s.Inv ∧ s.seq = .failed ∧ s.mem ≠ [] ∧ step s = .next t := by
  refine ⟨{ (scripted [write 0x10 1#64]).failedWith 5 17 with mem := [(0, 7#8), (0xFFFFF, 9#8)] }, _, ?_, rfl, by decide, rfl⟩
  exact ⟨by decide, by decide, by decide, by decide⟩

end Sys2Proof.Tests
end

section
/-! The invariant of the machine (spec/10_state.md section 4): the ends of a command, and every step, keep it (O50, O51). -/

namespace Sys2Proof.Machine

variable {s t : State} {e : ErrorCause}

/-! ### The error records that the hardware writes -/

/-- The record of an error fits `ERRINFO` and is one that the failed state can hold (R180, R187). -/
def ErrorCause.recordable (e : ErrorCause) : Prop := e.info < 2 ^ 32 ∧ errorRecordLegal e.code e.info = true

theorem ErrorCause.code_lt (e : ErrorCause) : e.code < 2 ^ 32 := by
  cases e <;> simp [ErrorCause.code]

theorem recordable_capacity {slots : Nat} (h : 0 < slots) : (ErrorCause.capacity slots).recordable := by
  have hpos : 1 ≤ min slots (2 ^ 32 - 1) := by omega
  have hlt : min slots (2 ^ 32 - 1) < 2 ^ 32 := by omega
  exact ⟨hlt, decide_eq_true hpos⟩

theorem recordable_keyGeneration {stage : Nat} (h : stage ∈ [1, 2, 3]) : (ErrorCause.keyGeneration stage).recordable := by
  simp only [List.mem_cons, List.not_mem_nil, or_false] at h
  rcases h with rfl | rfl | rfl <;> exact ⟨by decide, rfl⟩

theorem recordable_messageTooLarge : ErrorCause.messageTooLarge.recordable := ⟨by decide, rfl⟩

theorem recordable_frameCorruption {slots : Nat} (h : 0 < slots) (hlt : slots < 2 ^ 32) :
    (ErrorCause.frameCorruption slots).recordable := ⟨hlt, decide_eq_true h⟩

theorem recordable_illegalCommand {w : Word32} {why : IllegalWord} (h : decode w = .illegal why) :
    (ErrorCause.illegalCommand w).recordable :=
  ⟨w.isLt, by simp [ErrorCause.info, ErrorCause.code, errorRecordLegal, h]⟩

theorem recordable_illegalOperand {sub : Nat} (h : 1 ≤ sub ∧ sub ≤ 10) : (ErrorCause.illegalOperand sub).recordable := by
  have hlt : sub < 2 ^ 32 := by omega
  exact ⟨hlt, Bool.and_eq_true_iff.mpr ⟨decide_eq_true h.1, decide_eq_true h.2⟩⟩

/-- The sub-codes of the checks of `PACK` and `UNPACK` (R112) are sub-codes of R189. -/
theorem recordable_codecCheck {k sub : Nat} (h : codecCheck k s = some sub) : (ErrorCause.illegalOperand sub).recordable := by
  have hmem := codecCheck_mem k s sub h
  simp only [List.mem_cons, List.not_mem_nil, or_false] at hmem
  exact recordable_illegalOperand (by omega)

/-- The sub-codes of the checks of `LDINT` and `STINT` (R140, R141) are sub-codes of R189. -/
theorem recordable_intCheck {sub : Nat} (h : intCheck s = some sub) : (ErrorCause.illegalOperand sub).recordable := by
  have hmem := intCheck_mem s sub h
  simp only [List.mem_cons, List.not_mem_nil, or_false] at hmem
  exact recordable_illegalOperand (by omega)

/-- `UNPACK` needs no more slots than bits: with a legal group size the number fits `ERRINFO` (R105, R187). -/
theorem unpackSlots_lt {k : Nat} (h : codecCheck k s = none) : unpackSlots k s < 2 ^ 32 := by
  obtain ⟨hk, -⟩ := (codecCheck_eq_none_iff k s).mp h
  have hk1 : 1 ≤ k := ((groupSizeLegal_iff k).mp hk).1
  have hle : unpackSlots k s ≤ s.bitcnt.toNat :=
    (ceilDiv_le_iff _ _ _ hk1).mpr (Nat.le_mul_of_pos_right _ hk1)
  exact Nat.lt_of_le_of_lt hle s.bitcnt.isLt

/-! ### The ends of a command -/

/-- The state in which a command executes: memory in canonical form, and no error recorded. -/
def State.unfailed (s : State) : Prop := s.mem.wf = true ∧ s.errcode = 0 ∧ s.errinfo = 0

theorem inv_finish (hs : s.unfailed) : (finish s).Inv where
  memCanonical := hs.1
  resting := by simp
  noErrorNoRecord _ := hs.2
  errorRecorded hf := by simp at hf

theorem inv_raiseError (hm : s.mem.wf = true) (he : e.recordable) : (raiseError e s).Inv where
  memCanonical := hm
  resting := by simp
  noErrorNoRecord hf := by simp at hf
  errorRecorded _ := by
    obtain ⟨hlt, hlegal⟩ := he
    rw [raiseError_errcode, raiseError_errinfo, BitVec.toNat_ofNat, BitVec.toNat_ofNat,
      Nat.mod_eq_of_lt e.code_lt, Nat.mod_eq_of_lt hlt, hlegal]

theorem inv_clearError (hm : s.mem.wf = true) : (clearError s).Inv := inv_finish ⟨hm, rfl, rfl⟩

theorem inv_resetRegisters (hm : s.mem.wf = true) : (resetRegisters s).Inv where
  memCanonical := hm
  resting := by simp
  noErrorNoRecord _ := ⟨rfl, rfl⟩
  errorRecorded hf := by simp at hf

/-- Every command, executed with canonical memory and no error recorded, ends in a state that has the invariant. -/
theorem exec_inv (i : Instr) (hs : s.unfailed) (h : exec i s = .next t) : t.Inv := by
  have hm : s.mem.wf = true := hs.1
  cases i with
  | nop => obtain rfl := execNop_cases h; exact inv_finish hs
  | clrerr => obtain rfl := execClrerr_cases h; exact inv_clearError hm
  | srst => obtain rfl := execSrst_cases h; exact inv_resetRegisters hm
  | modexp =>
    obtain ⟨-, rfl⟩ | ⟨-, rfl⟩ := execModexp_cases h
    · exact inv_raiseError hm (recordable_illegalOperand (by decide))
    · exact inv_finish hs
  | encrypt =>
    obtain ⟨-, rfl⟩ | ⟨-, -, rfl⟩ | ⟨-, -, rfl⟩ := execEncrypt_cases h
    · exact inv_raiseError hm (recordable_illegalOperand (by decide))
    · exact inv_raiseError hm recordable_messageTooLarge
    · exact inv_finish hs
  | decrypt =>
    obtain ⟨-, rfl⟩ | ⟨-, rfl⟩ := execDecrypt_cases h
    · exact inv_raiseError hm (recordable_illegalOperand (by decide))
    · exact inv_finish hs
  | keygen b =>
    obtain ⟨-, rfl⟩ | ⟨-, stage, g, hstage, rfl⟩ | ⟨-, p, g, q, g', e, -, -, -, rfl⟩ := execKeygen_cases h
    · exact inv_raiseError hm (recordable_illegalOperand (by decide))
    · exact inv_raiseError hm (recordable_keyGeneration hstage)
    · exact inv_finish hs
  | ldint =>
    obtain ⟨sub, hsub, rfl⟩ | ⟨-, rfl⟩ := execLdint_cases h
    · exact inv_raiseError hm (recordable_intCheck hsub)
    · exact inv_finish hs
  | stint =>
    obtain ⟨sub, hsub, rfl⟩ | ⟨-, -, rfl⟩ | ⟨-, -, rfl⟩ := execStint_cases h
    · exact inv_raiseError hm (recordable_intCheck hsub)
    · exact inv_raiseError hm (recordable_illegalOperand (by decide))
    · exact inv_finish ⟨storeBytes_wf _ _ _ _ hm, hs.2⟩
  | primegen b =>
    obtain ⟨-, rfl⟩ | ⟨-, g, -, rfl⟩ | ⟨-, p, g, -, rfl⟩ := execPrimegen_cases h
    · exact inv_raiseError hm (recordable_illegalOperand (by decide))
    · exact inv_raiseError hm (recordable_keyGeneration (by decide))
    · exact inv_finish hs
  | ptest =>
    obtain ⟨-, rfl⟩ | ⟨-, rfl⟩ := execPtest_cases h
    · exact inv_raiseError hm (recordable_illegalOperand (by decide))
    · exact inv_finish hs
  | pack k =>
    obtain ⟨sub, hsub, rfl⟩ | ⟨-, hlt, rfl⟩ | ⟨-, -, rfl⟩ := execPack_cases h
    · exact inv_raiseError hm (recordable_codecCheck hsub)
    · exact inv_raiseError hm (recordable_capacity (Nat.zero_lt_of_lt hlt))
    · exact inv_finish ⟨storeBytes_wf _ _ _ _ hm, hs.2⟩
  | unpack k =>
    obtain ⟨sub, hsub, rfl⟩ | ⟨-, -, rfl⟩ | ⟨hc, -, hlt, rfl⟩ | ⟨-, -, -, rfl⟩ := execUnpack_cases h
    · exact inv_raiseError hm (recordable_codecCheck hsub)
    · exact inv_raiseError hm (recordable_illegalOperand (by decide))
    · exact inv_raiseError hm (recordable_frameCorruption (Nat.zero_lt_of_lt hlt) (unpackSlots_lt hc))
    · exact inv_finish ⟨storeBytes_wf _ _ _ _ hm, hs.2⟩
  | fits k =>
    obtain ⟨-, rfl⟩ | ⟨-, rfl⟩ := execFits_cases h
    · exact inv_raiseError hm (recordable_illegalOperand (by decide))
    · exact inv_finish hs

/-! ### The transactions of the host -/

/-- The invariant speaks of the memory, the sequencer state and the error record only, and of the memory only that its form is
canonical. -/
theorem State.Inv.congr (hs : s.Inv) (hm : t.mem.wf = true) (hseq : t.seq = s.seq) (hcode : t.errcode = s.errcode)
    (hinfo : t.errinfo = s.errinfo) : t.Inv where
  memCanonical := hm
  resting := by rw [hseq]; exact hs.resting
  noErrorNoRecord := by rw [hseq, hcode, hinfo]; exact hs.noErrorNoRecord
  errorRecorded := by rw [hseq, hcode, hinfo]; exact hs.errorRecorded

theorem State.Inv.popped (hs : s.Inv) (rest : List HostEvent) : (s.popped rest).Inv :=
  hs.congr hs.memCanonical rfl rfl rfl

/-- A command accepted in idle or done executes without an error recorded (R34, R35, R87): the busy window leaves no trace in the
memory or in the record. -/
theorem State.Inv.duringCommand_unfailed (hs : s.Inv) (hseq : s.seq = .idle ∨ s.seq = .done) :
    (duringCommand s).unfailed := by
  have hnot : s.seq ≠ .failed := by rcases hseq with h | h <;> simp [h]
  obtain ⟨l, rs, n, hd⟩ := duringCommand_cases s
  rw [hd]
  exact ⟨hs.memCanonical, hs.noErrorNoRecord hnot⟩

theorem State.Inv.of_commandWrite (hs : s.Inv) {w : Word32} (h : commandWrite w s = .next t) : t.Inv := by
  obtain rfl | ⟨-, hx⟩ | ⟨-, hx⟩ | ⟨hseq, ⟨i, -, hx⟩ | ⟨why, hw, rfl⟩⟩ := commandWrite_cases w s t h
  · exact hs
  · obtain rfl := execClrerr_cases hx; exact inv_clearError hs.memCanonical
  · obtain rfl := execSrst_cases hx; exact inv_resetRegisters hs.memCanonical
  · exact exec_inv i (hs.duringCommand_unfailed hseq) hx
  · exact inv_raiseError (hs.duringCommand_unfailed hseq).1 (recordable_illegalCommand hw)

theorem State.Inv.of_transact (hs : s.Inv) {a : Access} (h : transact a s = .next t) : t.Inv := by
  obtain ⟨rs, n, rfl⟩ | ⟨r, v, -, rfl⟩ | ⟨b, v, -, rfl⟩ | ⟨v, -, -, hw⟩ := transact_cases a s t h
  · exact hs.congr hs.memCanonical rfl rfl rfl
  · exact hs.congr (by simpa using hs.memCanonical) (by simp) (by simp) (by simp)
  · exact hs.congr (Memory.wf_write _ _ _ hs.memCanonical) rfl rfl rfl
  · exact hs.of_commandWrite hw

/-- Settles O50: each end of a command and each transaction of the host keeps the invariant. -/
theorem stepKeepsTheInvariant : Obligations.StepKeepsTheInvariant := by
  intro s t hs h
  obtain ⟨-, rfl⟩ | ⟨e, rest, -, ht⟩ := step_cases s t h
  · exact hs
  · exact (hs.popped rest).of_transact ht

/-- Settles O51: the reset state is what the reset of the registers leaves when no byte has been written. -/
theorem resetHasTheInvariant : Obligations.ResetHasTheInvariant :=
  inv_resetRegisters (s := State.reset) Memory.wf_nil

end Sys2Proof.Machine
end

section
/-! The registers (spec/10_state.md R31, R40 to R43, R47): what each register number reads, what a host write changes, the reset values
(O11, O12, O13), and the transactions on the two ports (O10). -/

namespace Sys2Proof.Machine

variable {s t : State}

/-! ### Registers and their numbers -/

/-- The register number of a register (R41), the inverse of `Reg.ofNumber`. -/
def Reg.number : Reg → RegNum
  | .opa => 0x00
  | .opb => 0x01
  | .opc => 0x02
  | .res => 0x03
  | .kn => 0x04
  | .ke => 0x05
  | .kd => 0x06
  | .kp => 0x07
  | .kq => 0x08
  | .kphi => 0x09
  | .cmd => 0x10
  | .status => 0x11
  | .errcode => 0x12
  | .errinfo => 0x13
  | .prng => 0x14
  | .bufBase => 0x16
  | .bufLen => 0x17
  | .datBase => 0x18
  | .datLen => 0x19
  | .bitcnt => 0x1A
  | .hdrbits => 0x1B

theorem Reg.number_of_ofNumber : ∀ r : RegNum, ∀ g ∈ Reg.ofNumber r, g.number = r := by decide

/-- Two numbers of the register map that name one register are equal (R41). -/
theorem Reg.ofNumber_inj {r r' : RegNum} {g : Reg} (h : Reg.ofNumber r = some g) (h' : Reg.ofNumber r' = some g) : r' = r :=
  (Reg.number_of_ofNumber r' g h').symm.trans (Reg.number_of_ofNumber r g h)

theorem readRegNum_of_some {r : RegNum} {g : Reg} (h : Reg.ofNumber r = some g) : readRegNum r s = readReg g s := by
  simp only [readRegNum, h]

theorem readRegNum_of_none {r : RegNum} (h : Reg.ofNumber r = none) : readRegNum r s = 0 := by
  simp only [readRegNum, h]

theorem writeRegNum_of_some {r : RegNum} {g : Reg} {v : Word} (h : Reg.ofNumber r = some g) :
    writeRegNum r v s = writeReg g v s := by
  simp only [writeRegNum, h]

theorem writeRegNum_of_none {r : RegNum} {v : Word} (h : Reg.ofNumber r = none) : writeRegNum r v s = s := by
  simp only [writeRegNum, h]

/-- States with the same registers read the same at every register number. -/
theorem readRegNum_congr (h : ∀ g, readReg g t = readReg g s) (r : RegNum) : readRegNum r t = readRegNum r s := by
  cases hr : Reg.ofNumber r with
  | none => rw [readRegNum_of_none hr, readRegNum_of_none hr]
  | some g => rw [readRegNum_of_some hr, readRegNum_of_some hr, h]

@[simp] theorem readRegNum_popped (r : RegNum) (s : State) (rest : List HostEvent) :
    readRegNum r (s.popped rest) = readRegNum r s :=
  readRegNum_congr (fun g => by cases g <;> rfl) r

/-- After the reset of the registers every register reads as after power-on (R47). -/
theorem readRegNum_resetRegisters (r : RegNum) (s : State) :
    readRegNum r (resetRegisters s) = readRegNum r State.reset :=
  readRegNum_congr (fun g => by cases g <;> rfl) r

/-! ### What a host write changes -/

@[simp] theorem zextWord_toNat (v : Word32) : (zextWord v).toNat = v.toNat := by
  have := v.isLt
  simp only [zextWord, BitVec.toNat_setWidth]
  omega

/-- A 32-bit register holds the low 32 bits of the value written, and reads them zero-extended (R43). -/
theorem zextWord_truncWord_toNat (v : Word) : (zextWord (truncWord v)).toNat = v.toNat % 2 ^ 32 := by
  rw [zextWord_toNat, truncWord, BitVec.toNat_setWidth]

/-- The registers of the map are stored apart: a write to one is not seen in another. -/
theorem readReg_writeReg_other {g g' : Reg} (h : g' ≠ g) (v : Word) (s : State) :
    readReg g' (writeReg g v s) = readReg g' s := by
  cases g <;> cases g' <;> simp [readReg, writeReg, statusWord] at h ⊢

theorem readRegNum_writeRegNum_other {r r' : RegNum} (h : r' ≠ r) (v : Word) (s : State) :
    readRegNum r' (writeRegNum r v s) = readRegNum r' s := by
  cases hr : Reg.ofNumber r with
  | none => rw [writeRegNum_of_none hr]
  | some g =>
    cases hr' : Reg.ofNumber r' with
    | none => rw [readRegNum_of_none hr', readRegNum_of_none hr']
    | some g' =>
      have hg : g' ≠ g := by rintro rfl; exact h (Reg.ofNumber_inj hr hr')
      rw [writeRegNum_of_some hr, readRegNum_of_some hr', readRegNum_of_some hr', readReg_writeReg_other hg]

/-- A `W`-bit register holds the value written (R43). -/
theorem readRegNum_writeRegNum_wide {r : RegNum} (hr : r ∈ Claims.wideRegs) (v : Word) (s : State) :
    readRegNum r (writeRegNum r v s) = v := by
  simp only [Claims.wideRegs, List.mem_cons, List.not_mem_nil, or_false] at hr
  rcases hr with rfl | rfl | rfl | rfl | rfl | rfl | rfl | rfl | rfl | rfl <;> rfl

theorem readRegNum_writeRegNum_narrow {r : RegNum} (hr : r ∈ Claims.narrowRegs) (v : Word) (s : State) :
    (readRegNum r (writeRegNum r v s)).toNat = v.toNat % 2 ^ 32 := by
  simp only [Claims.narrowRegs, List.mem_cons, List.not_mem_nil, or_false] at hr
  rcases hr with rfl | rfl | rfl | rfl | rfl | rfl | rfl <;> exact zextWord_truncWord_toNat v

/-- The numbers that are in neither list are unimplemented or name one of the four registers that ignore a store (R31, R33 to R35,
R42). -/
theorem ofNumber_of_not_writable : ∀ r : RegNum, r ∉ Claims.wideRegs ++ Claims.narrowRegs →
    Reg.ofNumber r ∈ [none, some .cmd, some .status, some .errcode, some .errinfo] := by decide

theorem writeRegNum_of_not_writable {r : RegNum} (hr : r ∉ Claims.wideRegs ++ Claims.narrowRegs) (v : Word) (s : State) :
    writeRegNum r v s = s := by
  have hmem := ofNumber_of_not_writable r hr
  simp only [List.mem_cons, List.not_mem_nil, or_false] at hmem
  obtain h | h | h | h | h := hmem
  · exact writeRegNum_of_none h
  all_goals exact writeRegNum_of_some h

/-- Of these numbers, those other than `STATUS`, `ERRCODE` and `ERRINFO` are unimplemented or name `CMD`. -/
theorem ofNumber_of_not_readable : ∀ r : RegNum, r ∉ Claims.wideRegs ++ Claims.narrowRegs → r ∉ [0x11, 0x12, 0x13] →
    Reg.ofNumber r = none ∨ Reg.ofNumber r = some .cmd := by decide

theorem readRegNum_of_not_readable {r : RegNum} (hr : r ∉ Claims.wideRegs ++ Claims.narrowRegs)
    (hr' : r ∉ [0x11, 0x12, 0x13]) (s : State) : readRegNum r s = 0 := by
  obtain h | h := ofNumber_of_not_readable r hr hr'
  · exact readRegNum_of_none h
  · exact readRegNum_of_some h

/-- Settles O11: the map number by number, then what the number is in: a wide, a narrow, or no writable register. -/
theorem registerWriteThenRead : Obligations.RegisterWriteThenRead := by
  intro s r v
  refine ⟨⟨rfl, rfl, rfl, rfl, rfl, rfl, rfl, rfl, rfl, rfl, ?_⟩,
    fun hr => readRegNum_writeRegNum_wide hr v s, fun hr => readRegNum_writeRegNum_narrow hr v s,
    fun hr => writeRegNum_of_not_writable hr v s, fun hr hr' => readRegNum_of_not_readable hr hr' s,
    fun r' h => readRegNum_writeRegNum_other h v s, writeRegNum_seq r v s, writeRegNum_mem r v s,
    writeRegNum_script r v s, writeRegNum_responses r v s, writeRegNum_freeIndex r v s⟩
  exact ⟨zextWord_toNat _, zextWord_toNat _, zextWord_toNat _, zextWord_toNat _, zextWord_toNat _, zextWord_toNat _,
    zextWord_toNat _, zextWord_toNat _, zextWord_toNat _⟩

/-! ### The transactions on the two ports when no command executes -/

theorem transact_regRead (h : s.seq ≠ .busy) (r : RegNum) :
    transact (.regRead r) s = .next (respond (.word (readRegNum r s)) s) := by
  simp only [transact, if_neg h]

theorem transact_regWrite (h : s.seq ≠ .busy) {r : RegNum} (hr : r ≠ cmdNumber) (v : Word) :
    transact (.regWrite r v) s = .next (writeRegNum r v s) := by
  simp only [transact, if_neg h, if_neg hr]

theorem transact_memRead (h : s.seq ≠ .busy) (a : Word32) :
    transact (.memRead a) s = .next (respond (.byte (s.mem.read a.toNat)) s) := by
  simp only [transact, if_neg h]

theorem transact_memWrite (h : s.seq ≠ .busy) (a : Word32) (v : Byte) :
    transact (.memWrite a v) s = .next { s with mem := s.mem.write a.toNat v } := by
  simp only [transact, if_neg h]

theorem respond_popped (x : Response) (s : State) (rest : List HostEvent) :
    respond x (s.popped rest) = { s.popped rest with responses := [x] } := rfl

/-- Settles O10: the step is the transaction at the head of the script, and each of the four is served by its port's rule. -/
theorem portTransactionsWhenNotBusy : Obligations.PortTransactionsWhenNotBusy := by
  intro s e rest hscript hbusy
  have hpop : (s.popped rest).seq ≠ .busy := hbusy
  rw [step_cons s e rest hscript]
  refine ⟨fun r he => ?_, fun r v hr he => ?_, fun a he => ?_, fun a v he => ?_⟩
  · rw [he, transact_regRead hpop, respond_popped, readRegNum_popped]
  · rw [he, transact_regWrite hpop hr]
  · refine ⟨s.mem.read a.toNat, ?_, fun _ => rfl, Memory.read_outside _ _⟩
    rw [he, transact_memRead hpop, respond_popped, State.popped_mem]
  · refine ⟨s.mem.write a.toNat v, ?_, Memory.read_write_same _ _ _, Memory.write_outside _ _ _,
      fun b => Memory.read_write_other _ _ _ _⟩
    rw [he, transact_memWrite hpop, State.popped_mem]

/-! ### `STATUS` and the reset values -/

/-- Settles O12: the four sequencer states give the bits of R30's table, `FLAG` gives bit 3. -/
theorem statusFields : Obligations.StatusFields := by
  intro s
  have hread : readRegNum 0x11 s = zextWord (statusWord s) := rfl
  rw [hread, zextWord_toNat, statusWord]
  cases s.seq <;> cases s.flag <;> rfl

theorem readRegNum_reset : ∀ r : RegNum, readRegNum r State.reset = if r = 0x14 then 0x00000001#64 else 0#64 := by
  decide

/-- A byte that nothing has written reads as the free value of its address (R62). -/
theorem Memory.read_nil {a : Nat} (h : a < Config.memSize) : Memory.read [] a = Config.powerOnByte a := by
  simp only [Memory.read, if_pos h, Memory.lookup_nil, Option.getD_none]

/-- Settles O13: the reset state register by register, and `SRST`, which is the reset of the registers. -/
theorem resetValues : Obligations.ResetValues := by
  refine ⟨readRegNum_reset, rfl, rfl, fun a ha => Memory.read_nil ha, fun s => ?_⟩
  exact ⟨resetRegisters s, rfl, fun r => readRegNum_resetRegisters r s, rfl, rfl, fun _ => rfl⟩

end Sys2Proof.Machine
end

section
/-! The frame of the commands (spec/10_state.md sections 2 to 5, spec/20_memory.md R60, R61, R64): what each command writes before it ends,
and that its stores stay in its destination region (O21, O22). -/

namespace Sys2Proof.Machine

variable {i : Instr} {s t u : State} {e : ErrorCause}

/-! ### What a command writes -/

/-- The region that a command stores to: the buffer for `PACK` (R103), the data region for `UNPACK` (R105) and `STINT` (R141). -/
def destination : Instr → State → Option Region
  | .pack _, s => some s.buf
  | .unpack _, s => some s.dat
  | .stint, s => some s.dat
  | _, _ => none

/-- The commands that leave a residue in `RES` (R121, R131, R132). -/
def isPower (i : Instr) : Prop := i = .modexp ∨ i = .encrypt ∨ i = .decrypt

/-- The commands that leave an answer in `FLAG` (R110, R155). -/
def isTest (i : Instr) : Prop := i = .ptest ∨ ∃ k, i = .fits k

/-- What command `i` may have written, from `s`, by the time it ends. -/
inductive Written : Instr → State → State → Prop
  | nothing (i : Instr) (s : State) : Written i s s
  | operand (s : State) (v : Word) : Written .ldint s { s with opa := v }
  | residue {i : Instr} (hi : isPower i) (s : State) (v : Word) : Written i s { s with res := v }
  | prime (b : Nat) (s : State) (g : Word32) (v : Word) : Written (.primegen b) s { s with prng := g, res := v }
  | key (b : Nat) (s : State) (g : Word32) (ks : KeyRegs) : Written (.keygen b) s { s with keys := ks, prng := g }
  | answer {i : Instr} (hi : isTest i) (s : State) (v : Bool) : Written i s { s with flag := v }
  | bytes {i : Instr} {s : State} {r : Region} (hr : destination i s = some r) {n : Nat} (hn : n ≤ r.len.toNat)
      (f : Memory → Nat → Byte) : Written i s { s with mem := storeBytes r.base.toNat f n s.mem }

/-- Command `i`, executed from `s`, ends in `t`: it wrote what it may write, and its end touched the sequencer and the error record
only, the record not on success (R188, R190), but for `CLRERR` (R171). -/
def Ends (i : Instr) (s t : State) : Prop :=
  ∃ u q code info, Written i s u ∧ t = { u with seq := q, errcode := code, errinfo := info } ∧
    (q = .done → i ≠ .clrerr → code = u.errcode ∧ info = u.errinfo)

theorem Written.finish (h : Written i s u) : Ends i s (finish u) :=
  ⟨u, .done, u.errcode, u.errinfo, h, rfl, fun _ _ => ⟨rfl, rfl⟩⟩

theorem Written.raiseError (h : Written i s u) : Ends i s (raiseError e u) :=
  ⟨u, .failed, _, _, h, rfl, fun hdone => nomatch hdone⟩

theorem ends_clearError : Ends .clrerr s (clearError s) :=
  ⟨s, .done, 0, 0, .nothing _ _, rfl, fun _ hi => absurd rfl hi⟩

theorem ends_raiseError : Ends i s (raiseError e s) := (Written.nothing i s).raiseError

theorem ends_powerToRes (hi : isPower i) (b x n : Word) : Ends i s (powerToRes b x n s) := (Written.residue hi s _).finish

/-- Every command but `SRST`, success or failure, ends so. -/
theorem exec_ends (h : exec i s = .next t) (hi : i ≠ .srst) : Ends i s t := by
  cases i with
  | nop => obtain rfl := execNop_cases h; exact (Written.nothing _ s).finish
  | clrerr => obtain rfl := execClrerr_cases h; exact ends_clearError
  | srst => exact absurd rfl hi
  | modexp =>
    obtain ⟨-, rfl⟩ | ⟨-, rfl⟩ := execModexp_cases h
    · exact ends_raiseError
    · exact ends_powerToRes (.inl rfl) _ _ _
  | encrypt =>
    obtain ⟨-, rfl⟩ | ⟨-, -, rfl⟩ | ⟨-, -, rfl⟩ := execEncrypt_cases h
    · exact ends_raiseError
    · exact ends_raiseError
    · exact ends_powerToRes (.inr (.inl rfl)) _ _ _
  | decrypt =>
    obtain ⟨-, rfl⟩ | ⟨-, rfl⟩ := execDecrypt_cases h
    · exact ends_raiseError
    · exact ends_powerToRes (.inr (.inr rfl)) _ _ _
  | keygen b =>
    obtain ⟨-, rfl⟩ | ⟨-, stage, g, -, rfl⟩ | ⟨-, p, g, q, g', x, -, -, -, rfl⟩ := execKeygen_cases h
    · exact ends_raiseError
    · exact (Written.key b s g KeyRegs.zero).raiseError
    · exact (Written.key b s g' (keyRegs p q x)).finish
  | ldint =>
    obtain ⟨sub, -, rfl⟩ | ⟨-, rfl⟩ := execLdint_cases h
    · exact ends_raiseError
    · exact (Written.operand s _).finish
  | stint =>
    obtain ⟨sub, -, rfl⟩ | ⟨-, -, rfl⟩ | ⟨-, -, rfl⟩ := execStint_cases h
    · exact ends_raiseError
    · exact ends_raiseError
    · exact (Written.bytes rfl (Nat.le_refl _) _).finish
  | primegen b =>
    obtain ⟨-, rfl⟩ | ⟨-, g, -, rfl⟩ | ⟨-, p, g, -, rfl⟩ := execPrimegen_cases h
    · exact ends_raiseError
    · exact (Written.prime b s g s.res).raiseError
    · exact (Written.prime b s g _).finish
  | ptest =>
    obtain ⟨-, rfl⟩ | ⟨-, rfl⟩ := execPtest_cases h
    · exact ends_raiseError
    · exact (Written.answer (.inl rfl) s _).finish
  | pack k =>
    obtain ⟨sub, -, rfl⟩ | ⟨-, -, rfl⟩ | ⟨-, hroom, rfl⟩ := execPack_cases h
    · exact ends_raiseError
    · exact ends_raiseError
    · exact (Written.bytes rfl hroom _).finish
  | unpack k =>
    obtain ⟨sub, -, rfl⟩ | ⟨-, -, rfl⟩ | ⟨-, -, -, rfl⟩ | ⟨-, hroom, -, rfl⟩ := execUnpack_cases h
    · exact ends_raiseError
    · exact ends_raiseError
    · exact ends_raiseError
    · exact (Written.bytes rfl hroom _).finish
  | fits k =>
    obtain ⟨-, rfl⟩ | ⟨-, rfl⟩ := execFits_cases h
    · exact ends_raiseError
    · exact (Written.answer (.inr ⟨k, rfl⟩) s _).finish

/-! ### What it keeps -/

/-- The fields that no command writes before it ends. -/
theorem Written.others (h : Written i s u) : u.opb = s.opb ∧ u.opc = s.opc ∧ u.buf = s.buf ∧ u.dat = s.dat ∧
    u.bitcnt = s.bitcnt ∧ u.hdrbits = s.hdrbits ∧ u.script = s.script ∧ u.responses = s.responses ∧
    u.freeIndex = s.freeIndex ∧ u.errcode = s.errcode ∧ u.errinfo = s.errinfo := by
  cases h <;> exact ⟨rfl, rfl, rfl, rfl, rfl, rfl, rfl, rfl, rfl, rfl, rfl⟩

theorem Written.opa (h : Written i s u) (hi : i ≠ .ldint) : u.opa = s.opa := by
  cases h with
  | operand => exact absurd rfl hi
  | _ => rfl

theorem Written.res (h : Written i s u) (hp : ¬isPower i) (hi : ∀ b, i ≠ .primegen b) : u.res = s.res := by
  cases h with
  | residue hpow => exact absurd hpow hp
  | prime b => exact absurd rfl (hi b)
  | _ => rfl

theorem Written.keys (h : Written i s u) (hi : ∀ b, i ≠ .keygen b) : u.keys = s.keys := by
  cases h with
  | key b => exact absurd rfl (hi b)
  | _ => rfl

theorem Written.prng (h : Written i s u) (hk : ∀ b, i ≠ .keygen b) (hp : ∀ b, i ≠ .primegen b) : u.prng = s.prng := by
  cases h with
  | key b => exact absurd rfl (hk b)
  | prime b => exact absurd rfl (hp b)
  | _ => rfl

theorem Written.flag (h : Written i s u) (hi : ¬isTest i) : u.flag = s.flag := by
  cases h with
  | answer htest => exact absurd htest hi
  | _ => rfl

/-- `m` is the memory of `s` itself, or what a run of stores that fits the destination region of `i` makes of it. -/
def StoresFit (i : Instr) (s : State) (m : Memory) : Prop :=
  m = s.mem ∨ ∃ r n f, destination i s = some r ∧ n ≤ r.len.toNat ∧ m = storeBytes r.base.toNat f n s.mem

theorem Written.mem (h : Written i s u) : StoresFit i s u.mem := by
  cases h with
  | bytes hr hn f => exact .inr ⟨_, _, f, hr, hn, rfl⟩
  | _ => exact .inl rfl

/-- The commands with a destination region are `PACK`, `UNPACK` and `STINT`. -/
theorem destination_eq_none (hp : ∀ k, i ≠ .pack k) (hu : ∀ k, i ≠ .unpack k) (hs : i ≠ .stint) :
    destination i s = none := by
  cases i with
  | pack k => exact absurd rfl (hp k)
  | unpack k => exact absurd rfl (hu k)
  | stint => exact absurd rfl hs
  | _ => rfl

/-! ### The memory after a command -/

/-- What any command can do to memory, `SRST` included (R172). -/
theorem exec_storesFit (h : exec i s = .next t) : StoresFit i s t.mem := by
  by_cases hi : i = .srst
  · subst hi
    obtain rfl := execSrst_cases h
    exact .inl rfl
  · obtain ⟨u, q, code, info, hw, rfl, -⟩ := exec_ends h hi
    exact hw.mem

theorem exec_mem_of_no_destination (h : exec i s = .next t) (hd : destination i s = none) : t.mem = s.mem := by
  obtain hm | ⟨r, n, f, hr, -, -⟩ := exec_storesFit h
  · exact hm
  · rw [hd] at hr; cases hr

theorem exec_read_outside_destination {r : Region} {a : Nat} (h : exec i s = .next t) (hr : destination i s = some r)
    (ha : ¬Claims.within r.base.toNat r.len.toNat a) : t.mem.read a = s.mem.read a := by
  obtain hm | ⟨r', n, f, hr', hn, hm⟩ := exec_storesFit h
  · rw [hm]
  · obtain rfl : r = r' := Option.some.inj (hr.symm.trans hr')
    rw [hm, storeBytes_read_outside]
    rintro ⟨hlo, hhi⟩
    exact ha ⟨hlo, by omega⟩

theorem exec_lookup_without_storage {a : Nat} (h : exec i s = .next t) (ha : Config.memSize ≤ a) :
    t.mem.lookup a = s.mem.lookup a := by
  obtain hm | ⟨r, n, f, -, -, hm⟩ := exec_storesFit h
  · rw [hm]
  · rw [hm, storeBytes_lookup_outside _ _ _ _ _ ha]

/-! ### The obligations -/

/-- Settles O21: the command wrote what it may write, and its end touched the sequencer and the error record only. -/
theorem commandsWriteOnlyTheirRegisters : Obligations.CommandsWriteOnlyTheirRegisters := by
  intro i s t h hi
  have hmem := exec_mem_of_no_destination h
  obtain ⟨u, q, code, info, hw, rfl, hrecord⟩ := exec_ends h hi
  obtain ⟨hopb, hopc, hbuf, hdat, hbitcnt, hhdrbits, hscript, hresponses, hfree, hcode, hinfo⟩ := hw.others
  refine ⟨hopb, hopc, hbuf, hdat, hbitcnt, hhdrbits, hscript, hresponses, hfree, hw.opa, ?_, hw.keys, hw.prng, ?_, ?_, ?_⟩
  · intro hm he hd
    exact hw.res (by rintro (h | h | h) <;> contradiction)
  · intro hp hf
    exact hw.flag (by rintro (h | ⟨k, h⟩); exacts [hp h, hf k h])
  · intro hdone hclr
    obtain ⟨hc, hn⟩ := hrecord hdone hclr
    exact ⟨hc.trans hcode, hn.trans hinfo⟩
  · intro hp hu hs a
    rw [hmem (destination_eq_none hp hu hs)]

/-- Settles O22: a run of stores that fits the destination region changes no byte outside it, and stores nothing without storage. -/
theorem storesStayInTheirRegion : Obligations.StoresStayInTheirRegion := by
  intro i s t a h
  refine ⟨?_, ?_, exec_lookup_without_storage h⟩
  · rintro ⟨k, rfl⟩
    exact exec_read_outside_destination h rfl
  · rintro (⟨k, rfl⟩ | rfl)
    · exact exec_read_outside_destination h rfl
    · exact exec_read_outside_destination h rfl

end Sys2Proof.Machine
end

section
/-! The command word (spec/30_encoding.md R80 to R86): which words are which command, row by row (O2), and how many words are legal. -/

namespace Sys2Proof

variable {i : Instr} {w : Word32}

/-! ### The words of a command -/

theorem Instr.opcode_lt (i : Instr) : i.opcode < 256 := by
  cases i <;> simp [Instr.opcode]

/-- A word is a command exactly when its number is the opcode plus 256 times an immediate that fits its field. -/
theorem decode_eq_instr_iff : decode w = .instr i ↔ w.toNat = i.opcode + 256 * i.imm8 ∧ i.imm8 < 256 := by
  have hop := i.opcode_lt
  rw [decode_eq]
  split
  · rw [decodeOpcode_instr]; omega
  · rw [iff_false_left (by simp)]; omega

/-- The mask of format Z keeps the whole word. -/
theorem and_wordMask (w : Word32) : w &&& 0xFFFFFFFF#32 = w := BitVec.and_allOnes

/-- The mask of formats K and B drops bits 15:8: field by field, a mask of ones keeps the field and a mask of zeros drops it. -/
theorem toNat_and_opcodeMask (w : Word32) :
    (w &&& 0xFFFF00FF#32).toNat = 65536 * (w.toNat / 65536) + w.toNat % 256 := by
  have hw := w.isLt
  have hand : (w &&& 0xFFFF00FF#32).toNat = w.toNat &&& 0xFFFF00FF := BitVec.toNat_and _ _
  have hhigh : (w.toNat &&& 0xFFFF00FF) / 2 ^ 16 = w.toNat / 2 ^ 16 := by
    rw [Nat.and_div_two_pow, show 0xFFFF00FF / 2 ^ 16 = 2 ^ 16 - 1 by rfl, Nat.and_two_pow_sub_one_eq_mod]
    omega
  have hmid : (w.toNat &&& 0xFFFF00FF) / 2 ^ 8 % 2 ^ 8 = 0 := by
    rw [Nat.and_div_two_pow, Nat.and_mod_two_pow, show 0xFFFF00FF / 2 ^ 8 % 2 ^ 8 = 0 by rfl, Nat.and_zero]
  have hlow : (w.toNat &&& 0xFFFF00FF) % 2 ^ 8 = w.toNat % 2 ^ 8 := by
    rw [Nat.and_mod_two_pow, show 0xFFFF00FF % 2 ^ 8 = 2 ^ 8 - 1 by rfl, Nat.and_two_pow_sub_one_eq_mod, Nat.mod_mod]
  omega

/-- A row of format Z (R81): the word is the opcode. -/
theorem decode_eq_instr_iff_word (hi : i.imm8 = 0) :
    decode w = .instr i ↔ w &&& 0xFFFFFFFF#32 = BitVec.ofNat 32 i.opcode := by
  have hop := i.opcode_lt
  rw [decode_eq_instr_iff, and_wordMask, ← BitVec.toNat_inj, BitVec.toNat_ofNat]
  omega

/-- A row of formats K and B (R82, R83): the word without its immediate is the opcode. -/
theorem decode_eq_instr_iff_opcode :
    decode w = .instr i ↔ w &&& 0xFFFF00FF#32 = BitVec.ofNat 32 i.opcode ∧ i.imm8 = w.toNat / 256 % 256 := by
  have hop := i.opcode_lt
  rw [decode_eq_instr_iff, ← BitVec.toNat_inj, toNat_and_opcodeMask, BitVec.toNat_ofNat]
  omega

/-- Settles O2: a row of format Z says what the whole word is, a row of formats K and B what it is without its immediate. -/
theorem wordIsTheCommandItsRowMatches : Obligations.WordIsTheCommandItsRowMatches := by
  intro w
  refine ⟨decode_eq_instr_iff_word rfl, decode_eq_instr_iff_word rfl, decode_eq_instr_iff_word rfl,
    decode_eq_instr_iff_word rfl, decode_eq_instr_iff_word rfl, decode_eq_instr_iff_word rfl,
    decode_eq_instr_iff_word rfl, decode_eq_instr_iff_word rfl, decode_eq_instr_iff_word rfl, fun imm => ?_⟩
  exact ⟨decode_eq_instr_iff_opcode, decode_eq_instr_iff_opcode, decode_eq_instr_iff_opcode,
    decode_eq_instr_iff_opcode, decode_eq_instr_iff_opcode⟩

/-! ### Legal and illegal words -/

/-- The opcode and the immediate of some command (R85, R81): an opcode of format Z with 0, or one of formats K and B. -/
theorem exists_instr_fields_iff (op imm : Nat) : (∃ i : Instr, op = i.opcode ∧ imm = i.imm8) ↔
    (op ∈ Claims.zOpcodes ∧ imm = 0) ∨ op ∈ Claims.immOpcodes := by
  constructor
  · rintro ⟨i, rfl, rfl⟩
    cases i <;> simp [Instr.opcode, Instr.imm8, Claims.zOpcodes, Claims.immOpcodes]
  · simp only [Claims.zOpcodes, Claims.immOpcodes, List.mem_cons, List.not_mem_nil, or_false]
    rintro (⟨rfl | rfl | rfl | rfl | rfl | rfl | rfl | rfl | rfl, rfl⟩ | rfl | rfl | rfl | rfl | rfl)
    · exact ⟨.nop, rfl, rfl⟩
    · exact ⟨.clrerr, rfl, rfl⟩
    · exact ⟨.srst, rfl, rfl⟩
    · exact ⟨.modexp, rfl, rfl⟩
    · exact ⟨.encrypt, rfl, rfl⟩
    · exact ⟨.decrypt, rfl, rfl⟩
    · exact ⟨.ldint, rfl, rfl⟩
    · exact ⟨.stint, rfl, rfl⟩
    · exact ⟨.ptest, rfl, rfl⟩
    · exact ⟨.keygen imm, rfl, rfl⟩
    · exact ⟨.primegen imm, rfl, rfl⟩
    · exact ⟨.pack imm, rfl, rfl⟩
    · exact ⟨.unpack imm, rfl, rfl⟩
    · exact ⟨.fits imm, rfl, rfl⟩

/-- A word is legal exactly when bits 31:16 are 0 and its opcode and immediate are those of a command. -/
theorem exists_decode_instr_iff : (∃ i, decode w = .instr i) ↔ w.toNat / 65536 = 0 ∧
    ((w.toNat % 256 ∈ Claims.zOpcodes ∧ w.toNat / 256 % 256 = 0) ∨ w.toNat % 256 ∈ Claims.immOpcodes) := by
  rw [← exists_instr_fields_iff, decode_eq]
  split
  · next hzero => simp only [decodeOpcode_instr, hzero, true_and]
  · next hzero => simp [hzero]

theorem exists_decode_illegal_iff : (∃ why, decode w = .illegal why) ↔ ¬∃ i, decode w = .instr i := by
  cases decode w <;> simp

theorem not_mem_immOpcodes_of_mem_zOpcodes : ∀ op ∈ Claims.zOpcodes, op ∉ Claims.immOpcodes := by decide

/-- The opcodes and immediates of the legal words. -/
def legalFields : Finset (Nat × Nat) :=
  Claims.zOpcodes.toFinset ×ˢ {0} ∪ Claims.immOpcodes.toFinset ×ˢ Finset.range 256

theorem mem_legalFields {op imm : Nat} : (op, imm) ∈ legalFields ↔
    (op ∈ Claims.zOpcodes ∧ imm = 0) ∨ (op ∈ Claims.immOpcodes ∧ imm < 256) := by
  simp [legalFields, eq_comm (a := imm)]

theorem fields_lt_of_mem_legalFields {p : Nat × Nat} (h : p ∈ legalFields) : p.1 < 256 ∧ p.2 < 256 := by
  have hop : ∀ op ∈ Claims.zOpcodes ++ Claims.immOpcodes, op < 256 := by decide
  rcases mem_legalFields.mp h with ⟨hz, himm⟩ | ⟨hk, himm⟩
  · exact ⟨hop _ (List.mem_append_left _ hz), by omega⟩
  · exact ⟨hop _ (List.mem_append_right _ hk), himm⟩

theorem card_legalFields : legalFields.card = 9 + 5 * 256 := by
  have hdisj : Disjoint (Claims.zOpcodes.toFinset ×ˢ {0}) (Claims.immOpcodes.toFinset ×ˢ Finset.range 256) :=
    Finset.disjoint_product.mpr (.inl (by decide))
  have hz : Claims.zOpcodes.toFinset.card = 9 := rfl
  have hk : Claims.immOpcodes.toFinset.card = 5 := rfl
  rw [legalFields, Finset.card_union_of_disjoint hdisj, Finset.card_product, Finset.card_product, hz, hk,
    Finset.card_singleton, Finset.card_range]

/-- The word with the given opcode and immediate (R80). -/
def wordOfFields (p : Nat × Nat) : Word32 := BitVec.ofNat 32 (p.1 + 256 * p.2)

theorem wordOfFields_toNat {p : Nat × Nat} (h : p ∈ legalFields) : (wordOfFields p).toNat = p.1 + 256 * p.2 := by
  obtain ⟨hop, himm⟩ := fields_lt_of_mem_legalFields h
  exact Laws.Encoding.ofNat_fields _ _ hop himm

theorem wordOfFields_injOn : Set.InjOn wordOfFields legalFields := by
  rintro ⟨op, imm⟩ hp ⟨op', imm'⟩ hq heq
  have hnum := congrArg BitVec.toNat heq
  rw [wordOfFields_toNat hp, wordOfFields_toNat hq] at hnum
  have := fields_lt_of_mem_legalFields hp
  have := fields_lt_of_mem_legalFields hq
  ext <;> dsimp only at * <;> omega

/-- The legal words are the words of the legal fields. -/
theorem setOf_legal_eq_image : {w : Word32 | ∃ i, decode w = .instr i} = wordOfFields '' legalFields := by
  ext w
  refine exists_decode_instr_iff.trans ⟨?_, ?_⟩
  · rintro ⟨hzero, hfields⟩
    refine ⟨(w.toNat % 256, w.toNat / 256 % 256), mem_legalFields.mpr ?_, ?_⟩
    · exact hfields.imp id (fun hk => ⟨hk, Nat.mod_lt _ (by decide)⟩)
    · apply BitVec.eq_of_toNat_eq
      rw [wordOfFields, BitVec.toNat_ofNat]
      have := w.isLt
      dsimp only
      omega
  · rintro ⟨⟨op, imm⟩, hp, rfl⟩
    obtain ⟨hop, himm⟩ := fields_lt_of_mem_legalFields hp
    rw [wordOfFields_toNat hp]
    dsimp only at *
    rw [show (op + 256 * imm) % 256 = op by omega, show (op + 256 * imm) / 256 % 256 = imm by omega]
    exact ⟨by omega, (mem_legalFields.mp hp).imp id And.left⟩

theorem ncard_legal : Set.ncard {w : Word32 | ∃ i, decode w = .instr i} = 9 + 5 * 256 := by
  rw [setOf_legal_eq_image, wordOfFields_injOn.ncard_image, Set.ncard_coe_finset, card_legalFields]

end Sys2Proof
end

section
/-! The acceptance of a command word (spec/30_encoding.md R86, R87, R92): what a write to `CMD` does in every sequencer state and how a
command ends (O5, O6), an illegal word (O3), and the worked encodings (O4). -/

namespace Sys2Proof.Machine

variable {i : Instr} {s t : State} {w : Word32} {v : Word} {e : HostEvent} {rest : List HostEvent} {why : IllegalWord}

/-! ### A write to `CMD` in each sequencer state -/

theorem transact_busy (h : s.seq = .busy) (a : Access) : transact a s = .next (busyAccess a s) := if_pos h

theorem transact_command (h : s.seq ≠ .busy) (v : Word) :
    transact (.regWrite cmdNumber v) s = commandWrite (truncWord v) s := by
  simp only [transact, if_neg h, if_pos]

theorem commandWrite_accepting (h : Claims.accepting s) : commandWrite w s = executeWord w s := by
  rcases h with h | h <;> simp only [commandWrite, h]

theorem commandWrite_failed_clrerr (h : s.seq = .failed) : commandWrite (encode .clrerr) s = exec .clrerr s := by
  simp only [commandWrite, h, if_pos]

theorem commandWrite_failed_srst (h : s.seq = .failed) : commandWrite (encode .srst) s = exec .srst s := by
  have hne : encode .srst ≠ encode .clrerr := by decide
  simp only [commandWrite, h, if_neg hne, if_pos]

theorem commandWrite_failed_other (h : s.seq = .failed) (hc : w ≠ encode .clrerr) (hs : w ≠ encode .srst) :
    commandWrite w s = .next s := by
  simp only [commandWrite, h, if_neg hc, if_neg hs]

theorem executeWord_instr (h : decode w = .instr i) : executeWord w s = exec i (duringCommand s) := by
  simp only [executeWord, h]

theorem executeWord_illegal (h : decode w = .illegal why) :
    executeWord w s = .next (raiseError (.illegalCommand w) (duringCommand s)) := by
  simp only [executeWord, h]

/-! ### The step that presents a command word -/

section
variable (hscript : s.script = e :: rest) (haccess : e.access = .regWrite 0x10 v)
include hscript haccess

theorem step_busy (h : s.seq = .busy) : step s = .next (s.popped rest) := by
  rw [step_cons s e rest hscript, haccess]
  exact transact_busy (s := s.popped rest) h _

theorem step_command (h : s.seq ≠ .busy) : step s = commandWrite (truncWord v) (s.popped rest) := by
  rw [step_cons s e rest hscript, haccess]
  exact transact_command (s := s.popped rest) h v

theorem step_accepting (h : Claims.accepting s) : step s = executeWord (truncWord v) (s.popped rest) := by
  have hbusy : s.seq ≠ .busy := by rcases h with h | h <;> simp [h]
  rw [step_command hscript haccess hbusy]
  exact commandWrite_accepting (s := s.popped rest) h

theorem step_legalWord (h : Claims.accepting s) (hw : decode (v.setWidth 32) = .instr i) :
    step s = exec i (duringCommand (s.popped rest)) :=
  (step_accepting hscript haccess h).trans (executeWord_instr hw)

/-- Without a window the error is raised in the state just accepted (R186): the code is 6, the information is the word. -/
theorem step_illegalWord (hpoll : noWindow rest) (h : Claims.accepting s) (hw : decode (v.setWidth 32) = .illegal why) :
    step s = .next ((s.popped rest).failedWith 6 (v.toNat % 2 ^ 32)) := by
  rw [step_accepting hscript haccess h, truncWord, executeWord_illegal hw, duringCommand_noWindow (s.popped rest) hpoll,
    ← BitVec.toNat_setWidth]
  rfl

end

/-! ### How a command ends -/

/-- Every command but `SRST` ends in `done` or in `raise` (R87). -/
theorem exec_seq (h : exec i s = .next t) (hi : i ≠ .srst) : t.seq = .done ∨ t.seq = .failed := by
  have finished (u : State) : (finish u).seq = .done ∨ (finish u).seq = .failed := .inl rfl
  have raised (c : ErrorCause) (u : State) : (raiseError c u).seq = .done ∨ (raiseError c u).seq = .failed := .inr rfl
  cases i with
  | nop => obtain rfl := execNop_cases h; exact finished _
  | clrerr => obtain rfl := execClrerr_cases h; exact finished _
  | srst => exact absurd rfl hi
  | modexp => obtain ⟨-, rfl⟩ | ⟨-, rfl⟩ := execModexp_cases h; exacts [raised _ _, finished _]
  | encrypt =>
    obtain ⟨-, rfl⟩ | ⟨-, -, rfl⟩ | ⟨-, -, rfl⟩ := execEncrypt_cases h
    exacts [raised _ _, raised _ _, finished _]
  | decrypt => obtain ⟨-, rfl⟩ | ⟨-, rfl⟩ := execDecrypt_cases h; exacts [raised _ _, finished _]
  | keygen b =>
    obtain ⟨-, rfl⟩ | ⟨-, stage, g, -, rfl⟩ | ⟨-, p, g, q, g', x, -, -, -, rfl⟩ := execKeygen_cases h
    exacts [raised _ _, raised _ _, finished _]
  | ldint => obtain ⟨sub, -, rfl⟩ | ⟨-, rfl⟩ := execLdint_cases h; exacts [raised _ _, finished _]
  | stint =>
    obtain ⟨sub, -, rfl⟩ | ⟨-, -, rfl⟩ | ⟨-, -, rfl⟩ := execStint_cases h
    exacts [raised _ _, raised _ _, finished _]
  | primegen b =>
    obtain ⟨-, rfl⟩ | ⟨-, g, -, rfl⟩ | ⟨-, p, g, -, rfl⟩ := execPrimegen_cases h
    exacts [raised _ _, raised _ _, finished _]
  | ptest => obtain ⟨-, rfl⟩ | ⟨-, rfl⟩ := execPtest_cases h; exacts [raised _ _, finished _]
  | pack k =>
    obtain ⟨sub, -, rfl⟩ | ⟨-, -, rfl⟩ | ⟨-, -, rfl⟩ := execPack_cases h
    exacts [raised _ _, raised _ _, finished _]
  | unpack k =>
    obtain ⟨sub, -, rfl⟩ | ⟨-, -, rfl⟩ | ⟨-, -, -, rfl⟩ | ⟨-, -, -, rfl⟩ := execUnpack_cases h
    exacts [raised _ _, raised _ _, raised _ _, finished _]
  | fits k => obtain ⟨-, rfl⟩ | ⟨-, rfl⟩ := execFits_cases h; exacts [raised _ _, finished _]

/-- `PACK` checks its group size before anything else (R112). -/
theorem exec_pack_illegalGroupSize {k : Nat} (h : groupSizeLegal k = false) (s : State) :
    exec (.pack k) s = .next (s.failedWith 7 1) := by
  have hcheck : codecCheck k s = some 1 := by simp [codecCheck, h]
  change execPack k s = _
  rw [execPack, hcheck]
  rfl

/-! ### The obligations -/

/-- Settles O3: the illegal words are those that are not legal, and the step that presents one raises `IllegalCommand`. -/
theorem illegalWordsRaiseIllegalCommand : Obligations.IllegalWordsRaiseIllegalCommand := by
  refine ⟨fun w => ?_, ncard_legal, fun s e rest v why hscript hpoll hacc haccess hw =>
    step_illegalWord hscript haccess hpoll hacc hw⟩
  have hdisj := not_mem_immOpcodes_of_mem_zOpcodes (w.toNat % 256)
  rw [exists_decode_illegal_iff, exists_decode_instr_iff, List.mem_append]
  tauto

/-- Settles O5: the window's transactions are performed on the state that has accepted the command. -/
theorem stepRunsTheDecodedCommand : Obligations.StepRunsTheDecodedCommand :=
  fun _ _ _ _ _ hscript hacc haccess hw => step_legalWord hscript haccess hacc hw

/-- Settles O6: the sequencer states one by one, and the end of each command. -/
theorem commandAcceptance : Obligations.CommandAcceptance := by
  refine ⟨fun s e rest v hscript hpoll haccess => ⟨step_busy hscript haccess, fun hfailed => ?_, fun hacc => ⟨?_, ?_⟩⟩, ?_⟩
  · have hpop : (s.popped rest).seq = .failed := hfailed
    rw [step_command hscript haccess (by simp [hfailed]), truncWord]
    refine ⟨fun hw => ?_, fun hw => ?_, fun hc hs => ?_⟩
    · rw [hw]; exact commandWrite_failed_clrerr hpop
    · rw [hw]; exact commandWrite_failed_srst hpop
    · exact commandWrite_failed_other hpop hc hs
  · intro i hw
    rw [step_legalWord hscript haccess hacc hw, duringCommand_noWindow (s.popped rest) hpoll]
    rfl
  · exact fun why hw => step_illegalWord hscript haccess hpoll hacc hw
  · intro i s t h
    by_cases hi : i = .srst
    · subst hi
      obtain rfl := execSrst_cases h
      exact .inl ⟨rfl, rfl⟩
    · exact .inr ⟨hi, exec_seq h hi⟩

/-- Settles O4: the words one by one; 5 is no legal group size, in any state. -/
theorem workedEncodings : Obligations.WorkedEncodings := by
  refine ⟨?_, ?_, ?_, ?_, ?_, ?_, ?_, ?_, ?_, ?_, ?_, ?_, ?_, ?_, ?_, ?_, exec_pack_illegalGroupSize rfl⟩ <;> decide

end Sys2Proof.Machine
end

section
/-! The bit pack/unpack codec (spec/41_bitpack_codec.md): the operand checks (O44), the memories that `PACK` and `UNPACK` leave, bit by bit
(O45, O46), the round trip (O47), and the capacity check (O48, O49). -/

namespace Sys2Proof.Machine

variable {k : Nat} {s : State}

/-! ### The operand checks -/

theorem groupSizeLegal_eq_false_iff : groupSizeLegal k = false ↔ ¬(1 ≤ k ∧ k ≤ 4) := by
  rw [← groupSizeLegal_iff, Bool.not_eq_true]

theorem Region.inside_iff_insideMemory {r : Region} : r.inside = true ↔ Claims.insideMemory r := r.inside_iff

theorem Region.overlaps_iff_overlap {a b : Region} : a.overlaps b = true ↔ Claims.overlap a b := a.overlaps_iff b

/-- `codecCheck_eq_none_iff` in the terms of the claims: what R112 asks of the operands. -/
theorem codecCheck_passes_iff : codecCheck k s = none ↔
    (1 ≤ k ∧ k ≤ 4) ∧ Claims.insideMemory s.buf ∧ Claims.insideMemory s.dat ∧ ¬Claims.overlap s.buf s.dat := by
  rw [codecCheck_eq_none_iff, groupSizeLegal_iff, Region.inside_iff_insideMemory, Region.inside_iff_insideMemory,
    ← Region.overlaps_iff_overlap, Bool.not_eq_true]

/-- The four checks of R112 in their order. -/
theorem codecCheck_fails :
    (¬(1 ≤ k ∧ k ≤ 4) → codecCheck k s = some 1) ∧
    (1 ≤ k ∧ k ≤ 4 → ¬Claims.insideMemory s.buf → codecCheck k s = some 3) ∧
    (1 ≤ k ∧ k ≤ 4 → Claims.insideMemory s.buf → ¬Claims.insideMemory s.dat → codecCheck k s = some 4) ∧
    (1 ≤ k ∧ k ≤ 4 → Claims.insideMemory s.buf → Claims.insideMemory s.dat → Claims.overlap s.buf s.dat →
      codecCheck k s = some 5) := by
  simp only [← groupSizeLegal_iff, ← Region.inside_iff_insideMemory, ← Region.overlaps_iff_overlap, codecCheck]
  refine ⟨fun hk => ?_, fun hk hbuf => ?_, fun hk hbuf hdat => ?_, fun hk hbuf hdat hov => ?_⟩
  · simp [hk]
  · simp [hk, hbuf]
  · simp [hk, hbuf, hdat]
  · simp [hk, hbuf, hdat, hov]

/-- A failed check of R112 ends `PACK` and `UNPACK`. -/
theorem exec_codecCheck_failed {i : Instr} (hi : i ∈ [Instr.pack k, Instr.unpack k]) {sub : Nat}
    (h : codecCheck k s = some sub) : exec i s = .next (s.failedWith 7 sub) := by
  simp only [List.mem_cons, List.not_mem_nil, or_false] at hi
  obtain rfl | rfl := hi
  · change execPack k s = _
    rw [execPack, h]; rfl
  · change execUnpack k s = _
    rw [execUnpack, h]; rfl

/-! ### Regions that do not overlap -/

theorem overlap_comm {a b : Region} : Claims.overlap a b ↔ Claims.overlap b a := by
  unfold Claims.overlap; tauto

/-- A run of stores that fits one region changes no byte of a region that does not overlap it. -/
theorem storeBytes_read_disjoint {a b : Region} (hdisjoint : ¬Claims.overlap a b) {n i : Nat} (hn : n ≤ a.len.toNat)
    (hi : i < b.len.toNat) (f : Memory → Nat → Byte) (m : Memory) :
    (storeBytes a.base.toNat f n m).read (b.base.toNat + i) = m.read (b.base.toNat + i) := by
  refine storeBytes_read_outside _ _ _ _ _ fun ⟨hlo, hhi⟩ => hdisjoint ⟨?_, ?_, ?_, ?_⟩ <;> omega

/-! ### `PACK` -/

/-- The memory that a successful `PACK k` leaves (R103; `exec_pack_fitting`). -/
def packedMemory (k : Nat) (s : State) : Memory :=
  storeBytes s.buf.base.toNat (packSlot s.buf s.dat k) (packSlots k s) s.mem

theorem exec_pack_overfull (hcheck : codecCheck k s = none) (hfull : s.buf.len.toNat < packSlots k s) :
    exec (.pack k) s = .next (s.failedWith 1 (min (packSlots k s) (2 ^ 32 - 1))) := by
  change execPack k s = _
  simp only [execPack, hcheck, if_pos hfull]
  rfl

theorem exec_pack_fitting (hcheck : codecCheck k s = none) (hroom : packSlots k s ≤ s.buf.len.toNat) :
    exec (.pack k) s = .next (finish { s with mem := packedMemory k s }) := by
  change execPack k s = _
  simp only [execPack, hcheck, if_neg (Nat.not_lt.mpr hroom)]
  rfl

/-- A `PACK k` that ends in `done` has passed every check and left the packed memory. -/
theorem exec_pack_done {t : State} (h : exec (.pack k) s = .next t) (hdone : t.seq = .done) :
    codecCheck k s = none ∧ packSlots k s ≤ s.buf.len.toNat ∧ t = finish { s with mem := packedMemory k s } := by
  obtain ⟨sub, -, rfl⟩ | ⟨-, -, rfl⟩ | hend := execPack_cases h
  · cases hdone
  · cases hdone
  · exact hend

/-- The capacity formula (R108) decides whether the slots fit. -/
theorem packSlots_le_iff (hcheck : codecCheck k s = none) :
    packSlots k s ≤ s.buf.len.toNat ↔ 8 * s.dat.len.toNat ≤ s.buf.len.toNat * k := by
  obtain ⟨⟨hk, -⟩, -⟩ := codecCheck_passes_iff.mp hcheck
  exact ceilDiv_le_iff _ _ _ hk

section
variable (hcheck : codecCheck k s = none) (hroom : packSlots k s ≤ s.buf.len.toNat)
include hcheck hroom

/-- A slot is computed from what the buffer and the data held before the command: no earlier store reaches either. -/
theorem packedMemory_read_slot {j : Nat} (hj : j < packSlots k s) : ∃ m : Memory,
    (packedMemory k s).read (s.buf.base.toNat + j) = packSlot s.buf s.dat k m j ∧
    m.read (s.buf.base.toNat + j) = s.mem.read (s.buf.base.toNat + j) ∧
    ∀ i < s.dat.len.toNat, m.read (s.dat.base.toNat + i) = s.mem.read (s.dat.base.toNat + i) := by
  obtain ⟨-, hbuf, -, hdisjoint⟩ := codecCheck_passes_iff.mp hcheck
  unfold Claims.insideMemory at hbuf
  refine ⟨_, storeBytes_read_inside _ _ _ _ _ hj (by omega), storeBytes_read_outside _ _ _ _ _ (by omega), ?_⟩
  exact fun i hi => storeBytes_read_disjoint hdisjoint (by omega) hi _ _

/-- R103: the low bits of slot `j`. -/
theorem packedMemory_low {j t : Nat} (hj : j < packSlots k s) (ht : t < k) :
    ((packedMemory k s).read (s.buf.base.toNat + j)).getLsbD (k - 1 - t) =
      if j * k + t < 8 * s.dat.len.toNat then
        (s.mem.read (s.dat.base.toNat + (j * k + t) / 8)).getLsbD (7 - (j * k + t) % 8)
      else false := by
  obtain ⟨⟨-, hk⟩, -⟩ := codecCheck_passes_iff.mp hcheck
  obtain ⟨m, hslot, -, hdat⟩ := packedMemory_read_slot hcheck hroom hj
  rw [hslot, packSlot_low _ _ _ _ _ _ (by omega) ht]
  split
  · rw [hdat _ (by omega)]
  · rfl

/-- R103, R104: the high bits of slot `j`. -/
theorem packedMemory_high {j b : Nat} (hj : j < packSlots k s) (hb : k ≤ b) :
    ((packedMemory k s).read (s.buf.base.toNat + j)).getLsbD b = (s.mem.read (s.buf.base.toNat + j)).getLsbD b := by
  obtain ⟨m, hslot, hbuf, -⟩ := packedMemory_read_slot hcheck hroom hj
  rw [hslot, packSlot_high _ _ _ _ _ _ hb, hbuf]

end

/-! ### `UNPACK` -/

/-- The memory that a successful `UNPACK k` leaves (R105; `exec_unpack_fitting`). -/
def unpackedMemory (k : Nat) (s : State) : Memory :=
  storeBytes s.dat.base.toNat (unpackByte s.buf s.bitcnt.toNat k) (unpackBytes s) s.mem

theorem exec_unpack_noOutputRoom (hcheck : codecCheck k s = none) (hout : s.dat.len.toNat < unpackBytes s) :
    exec (.unpack k) s = .next (s.failedWith 7 9) := by
  change execUnpack k s = _
  simp only [execUnpack, hcheck, if_pos hout]
  rfl

theorem exec_unpack_tooFewSlots (hcheck : codecCheck k s = none) (hout : unpackBytes s ≤ s.dat.len.toNat)
    (hslots : s.buf.len.toNat < unpackSlots k s) : exec (.unpack k) s = .next (s.failedWith 5 (unpackSlots k s)) := by
  change execUnpack k s = _
  simp only [execUnpack, hcheck, if_neg (Nat.not_lt.mpr hout), if_pos hslots]
  rfl

theorem exec_unpack_fitting (hcheck : codecCheck k s = none) (hout : unpackBytes s ≤ s.dat.len.toNat)
    (hslots : unpackSlots k s ≤ s.buf.len.toNat) :
    exec (.unpack k) s = .next (finish { s with mem := unpackedMemory k s }) := by
  change execUnpack k s = _
  simp only [execUnpack, hcheck, if_neg (Nat.not_lt.mpr hout), if_neg (Nat.not_lt.mpr hslots)]
  rfl

/-- R105: the bits of output byte `i`, read from the buffer as it was before the command: no store of `UNPACK` reaches it. -/
theorem unpackedMemory_bit (hcheck : codecCheck k s = none) (hout : unpackBytes s ≤ s.dat.len.toNat)
    (hslots : unpackSlots k s ≤ s.buf.len.toNat) {i t : Nat} (hi : i < unpackBytes s) (ht : t < 8) :
    ((unpackedMemory k s).read (s.dat.base.toNat + i)).getLsbD (7 - t) =
      if 8 * i + t < s.bitcnt.toNat then
        (s.mem.read (s.buf.base.toNat + (8 * i + t) / k)).getLsbD (k - 1 - (8 * i + t) % k)
      else false := by
  obtain ⟨⟨hk, -⟩, -, hdat, hdisjoint⟩ := codecCheck_passes_iff.mp hcheck
  unfold Claims.insideMemory at hdat
  rw [unpackedMemory, storeBytes_read_inside _ _ _ _ _ hi (by omega), unpackByte_bit _ _ _ _ _ _ ht]
  split
  · rename_i hidx
    have hslot : (8 * i + t) / k < unpackSlots k s :=
      (lt_ceilDiv_iff _ _ _ hk).mpr (Nat.lt_of_le_of_lt (Nat.div_mul_le_self _ _) hidx)
    rw [storeBytes_read_disjoint (mt overlap_comm.mp hdisjoint) (by omega) (by omega)]
  · rfl

/-! ### `FITS` -/

theorem exec_fits_illegalGroupSize (hk : ¬(1 ≤ k ∧ k ≤ 4)) : exec (.fits k) s = .next (s.failedWith 7 1) := by
  change execFits k s = _
  simp only [execFits, groupSizeLegal_eq_false_iff.mpr hk]
  rfl

theorem exec_fits (hk : 1 ≤ k ∧ k ≤ 4) : exec (.fits k) s =
    .next (finish { s with flag := fitsFlag s.buf.len.toNat k s.hdrbits.toNat s.bitcnt.toNat }) := by
  change execFits k s = _
  simp only [execFits, (groupSizeLegal_iff k).mpr hk]
  rfl

theorem fitsFlag_iff {bufferLength headerBits payloadBits : Nat} :
    fitsFlag bufferLength k headerBits payloadBits = true ↔ headerBits + payloadBits ≤ bufferLength * k :=
  decide_eq_true_iff

/-- The bits of a region inside memory can be counted in `BITCNT`. -/
theorem bitCount_toNat {r : Region} (hr : Claims.insideMemory r) :
    (BitVec.ofNat 32 (8 * r.len.toNat)).toNat = 8 * r.len.toNat := by
  unfold Claims.insideMemory at hr
  rw [Config.memSize_eq] at hr
  rw [BitVec.toNat_ofNat]
  omega

/-! ### The round trip -/

theorem byte_eq_of_bits {b c : Byte} (h : ∀ t < 8, b.getLsbD (7 - t) = c.getLsbD (7 - t)) : b = c := by
  refine BitVec.eq_of_getLsbD_eq fun p hp => ?_
  have hbit := h (7 - p) (by omega)
  rwa [show 7 - (7 - p) = p by omega] at hbit

/-- The packed slots hold the stream (R106): bit `idx` of the data stands in bit `k - 1 - idx mod k` of slot `idx div k`. -/
theorem packedMemory_stream (hcheck : codecCheck k s = none) (hroom : packSlots k s ≤ s.buf.len.toNat) {idx : Nat}
    (hidx : idx < 8 * s.dat.len.toNat) :
    ((packedMemory k s).read (s.buf.base.toNat + idx / k)).getLsbD (k - 1 - idx % k) =
      (s.mem.read (s.dat.base.toNat + idx / 8)).getLsbD (7 - idx % 8) := by
  obtain ⟨⟨hk, -⟩, -⟩ := codecCheck_passes_iff.mp hcheck
  have hslot : idx / k < packSlots k s :=
    (lt_ceilDiv_iff _ _ _ hk).mpr (Nat.lt_of_le_of_lt (Nat.div_mul_le_self _ _) hidx)
  rw [packedMemory_low hcheck hroom hslot (Nat.mod_lt _ hk), Nat.div_add_mod', if_pos hidx]

/-- R106: from the packed slots, `UNPACK` of as many bits as were packed gives the bytes back, wherever its output goes. -/
theorem exec_unpack_packed {w : State} (hcheck : codecCheck k s = none) (hroom : packSlots k s ≤ s.buf.len.toNat)
    (hbuf : w.buf = s.buf) (hmem : w.mem = packedMemory k s) (hcount : w.bitcnt.toNat = 8 * s.dat.len.toNat)
    (hinside : Claims.insideMemory w.dat) (hdisjoint : ¬Claims.overlap s.buf w.dat)
    (hlen : s.dat.len.toNat ≤ w.dat.len.toNat) :
    ∃ u, exec (.unpack k) w = .next u ∧ u.seq = .done ∧
      ∀ i < s.dat.len.toNat, u.mem.read (w.dat.base.toNat + i) = s.mem.read (s.dat.base.toNat + i) := by
  obtain ⟨hk, hbufInside, -, -⟩ := codecCheck_passes_iff.mp hcheck
  have hwcheck : codecCheck k w = none :=
    codecCheck_passes_iff.mpr ⟨hk, hbuf ▸ hbufInside, hinside, hbuf ▸ hdisjoint⟩
  have hbytes : unpackBytes w = s.dat.len.toNat := by rw [unpackBytes, hcount, ceilDiv]; omega
  have hslots : unpackSlots k w ≤ w.buf.len.toNat := by rw [unpackSlots, hcount, hbuf]; exact hroom
  have hout : unpackBytes w ≤ w.dat.len.toNat := hbytes ▸ hlen
  refine ⟨_, exec_unpack_fitting hwcheck hout hslots, rfl, fun i hi => byte_eq_of_bits fun t ht => ?_⟩
  rw [finish_mem, unpackedMemory_bit hwcheck hout hslots (hbytes ▸ hi) ht, hcount, if_pos (by omega), hmem, hbuf,
    packedMemory_stream hcheck hroom (by omega), show (8 * i + t) / 8 = i by omega, show (8 * i + t) % 8 = t by omega]

/-! ### The obligations -/

/-- Settles O44: the check that fails decides how `PACK` and `UNPACK` end; `FITS` makes the first only. -/
theorem codecOperandChecks : Obligations.CodecOperandChecks := by
  intro k s
  obtain ⟨hsize, hbuf, hdat, hov⟩ := codecCheck_fails (k := k) (s := s)
  refine ⟨fun i hi => ?_, exec_fits_illegalGroupSize⟩
  have failed {sub : Nat} (h : codecCheck k s = some sub) := exec_codecCheck_failed hi h
  exact ⟨fun h => failed (hsize h), fun h1 h4 h => failed (hbuf ⟨h1, h4⟩ h), fun h1 h4 hb h => failed (hdat ⟨h1, h4⟩ hb h),
    fun h1 h4 hb hd h => failed (hov ⟨h1, h4⟩ hb hd h)⟩

/-- Settles O45: the capacity error, or the packed memory with its low bits, its high bits and its other bytes. -/
theorem packCommand : Obligations.PackCommand := by
  refine ⟨fun k hk => decode_fields 0x40 k (by decide) hk, fun k s slots h1 h4 hbuf hdat hdisjoint hslots => ?_⟩
  have hcheck : codecCheck k s = none := codecCheck_passes_iff.mpr ⟨⟨h1, h4⟩, hbuf, hdat, hdisjoint⟩
  obtain rfl : slots = packSlots k s := hslots
  refine ⟨exec_pack_overfull hcheck, fun hroom => ⟨packedMemory k s, exec_pack_fitting hcheck hroom, ?_, ?_, ?_⟩⟩
  · exact fun j hj t ht => packedMemory_low hcheck hroom hj ht
  · exact fun j hj b hb => packedMemory_high hcheck hroom hj hb
  · exact fun a ha => storeBytes_read_outside _ _ _ _ _ ha

/-- Settles O46: the two errors in their order, or the unpacked memory with its bits and its other bytes. -/
theorem unpackCommand : Obligations.UnpackCommand := by
  refine ⟨fun k hk => decode_fields 0x41 k (by decide) hk,
    fun k s n nbytes slots h1 h4 hbuf hdat hdisjoint hn hbytes hslots => ?_⟩
  have hcheck : codecCheck k s = none := codecCheck_passes_iff.mpr ⟨⟨h1, h4⟩, hbuf, hdat, hdisjoint⟩
  subst hn
  obtain rfl : nbytes = unpackBytes s := hbytes
  obtain rfl : slots = unpackSlots k s := hslots
  refine ⟨exec_unpack_noOutputRoom hcheck, exec_unpack_tooFewSlots hcheck,
    fun hout hroom => ⟨unpackedMemory k s, exec_unpack_fitting hcheck hout hroom, ?_, ?_⟩⟩
  · exact fun i hi t ht => unpackedMemory_bit hcheck hout hroom hi ht
  · exact fun a ha => storeBytes_read_outside _ _ _ _ _ ha

/-- Settles O47: `UNPACK` asks for the slots that `PACK` filled, and reads from each bit the stream bit that `PACK` put there. -/
theorem codecRoundTrip : Obligations.CodecRoundTrip := by
  intro k s t d hpack hdone hd hdisjoint hlen
  obtain ⟨hcheck, hroom, rfl⟩ := exec_pack_done hpack hdone
  obtain ⟨-, -, hdat, -⟩ := codecCheck_passes_iff.mp hcheck
  exact exec_unpack_packed hcheck hroom rfl rfl (bitCount_toNat hdat) hd hdisjoint hlen

/-- Settles O48: the group size is the one check, and the answer is the sum's comparison. -/
theorem fitsCommand : Obligations.FitsCommand :=
  ⟨fun k hk => decode_fields 0x42 k (by decide) hk,
    fun _ _ => ⟨exec_fits_illegalGroupSize, fun h1 h4 => ⟨_, fitsFlag_iff, exec_fits ⟨h1, h4⟩⟩⟩⟩

/-- Settles O49: the capacity formula decides the slots of `PACK` and the answer of `FITS` alike. -/
theorem capacityBoundaryIsExact : Obligations.CapacityBoundaryIsExact := by
  intro k s h1 h4 hbuf hdat hdisjoint
  have hcheck : codecCheck k s = none := codecCheck_passes_iff.mpr ⟨⟨h1, h4⟩, hbuf, hdat, hdisjoint⟩
  have hfits : fitsFlag s.buf.len.toNat k 0 (BitVec.ofNat 32 (8 * s.dat.len.toNat)).toNat = true ↔
      8 * s.dat.len.toNat ≤ s.buf.len.toNat * k := by rw [bitCount_toNat hdat, fitsFlag_iff, Nat.zero_add]
  by_cases hroom : packSlots k s ≤ s.buf.len.toNat
  · have hformula := (packSlots_le_iff hcheck).mp hroom
    refine ⟨_, _, exec_pack_fitting hcheck hroom, exec_fits ⟨h1, h4⟩, ?_, ?_, ?_⟩
    · exact iff_of_true rfl hformula
    · exact iff_of_true rfl (hfits.mpr hformula)
    · exact fun hfailed => absurd rfl hfailed
  · have hformula := mt (packSlots_le_iff hcheck).mpr hroom
    refine ⟨_, _, exec_pack_overfull hcheck (Nat.lt_of_not_le hroom), exec_fits ⟨h1, h4⟩, ?_, ?_, ?_⟩
    · exact iff_of_false (by simp) hformula
    · exact iff_of_false (by simp) (mt hfits.mp hformula)
    · exact fun _ => ⟨rfl, fun _ => rfl⟩

end Sys2Proof.Machine
end

section
/-! The modular exponentiation engine (spec/42_modexp_engine.md): the value of `modexp` (O23), the power residue in `RES` that `MODEXP`,
`ENCRYPT` and `DECRYPT` share (R124), and the command `MODEXP` (O24). -/

namespace Sys2Proof.Machine

variable {s : State}

/-! ### The value of `modexp` -/

/-- R123: at the loop's start no bit of the exponent is above the scan, so `r` is the residue for the exponent 0. -/
theorem modexp_eq_pow_mod (b e n : Nat) : modexp b e n = b ^ e % n := by
  have hstart : 1 % n = (b % n) ^ (e / 2 ^ bitlen e) % n := by
    rw [Nat.div_eq_of_lt (lt_two_pow_bitlen e), pow_zero]
  rw [modexp, modexpLoop_spec _ _ _ _ _ hstart, ← Nat.pow_mod]

/-- Settles O23: each consequence is a fact about powers and remainders. -/
theorem modexpIsThePowerResidue : Obligations.ModexpIsThePowerResidue := by
  intro b e n hn
  simp only [modexp_eq_pow_mod, true_and]
  refine ⟨Nat.mod_lt _ hn, Nat.mod_one _, fun h2 => ?_, fun he => ?_, ?_, Nat.pow_mod _ _ _⟩
  · rw [pow_zero, Nat.mod_eq_of_lt h2]
  · rw [Nat.zero_pow he, Nat.zero_mod]
  · rw [pow_one]

/-! ### The power residue in `RES` -/

/-- R121: the residue always fits `RES`, being below the modulus. -/
theorem exists_powerToRes_eq {modulus : Word} (hn : modulus.toNat ≠ 0) (base exponent : Word) (s : State) :
    ∃ v : Word, v.toNat = base.toNat ^ exponent.toNat % modulus.toNat ∧
      powerToRes base exponent modulus s = { s with res := v, seq := .done } := by
  refine ⟨BitVec.ofNat 64 (modexp base.toNat exponent.toNat modulus.toNat), ?_, rfl⟩
  have hbelow : base.toNat ^ exponent.toNat % modulus.toNat < modulus.toNat := Nat.mod_lt _ (Nat.pos_of_ne_zero hn)
  rw [modexp_eq_pow_mod, BitVec.toNat_ofNat, Nat.mod_eq_of_lt (hbelow.trans modulus.isLt)]

/-! ### `MODEXP` -/

theorem exec_modexp_zeroModulus (h : s.opc.toNat = 0) : exec .modexp s = .next (s.failedWith 7 8) := by
  change execModexp s = _
  rw [execModexp, if_pos (BitVec.eq_of_toNat_eq h)]
  rfl

theorem exec_modexp (h : s.opc.toNat ≠ 0) : exec .modexp s = .next (powerToRes s.opa s.opb s.opc s) := by
  change execModexp s = _
  rw [execModexp, if_neg (mt (congrArg BitVec.toNat) h)]

/-- Settles O24: the modulus 0 ends in the error, every other one in the power residue. -/
theorem modexpCommand : Obligations.ModexpCommand := by
  refine ⟨by decide, fun s => ⟨exec_modexp_zeroModulus, fun h => ?_⟩⟩
  rw [exec_modexp h]
  obtain ⟨v, hv, hend⟩ := exists_powerToRes_eq h s.opa s.opb s
  exact ⟨v, hv, congrArg _ hend⟩

end Sys2Proof.Machine
end

section
/-! What the small prime generator (spec/44_prime_generator.md) hands to `KEYGEN`: trial division decides primality (R152), the bounds of
a candidate (R151), and what a prime found by a search is (R153). -/

namespace Sys2Proof.Machine

variable {b c excl n p r : Nat} {s g : Word32}

/-! ### Trial division -/

/-- An odd number that is not prime has an odd divisor, its least, whose square it reaches. -/
theorem prime_iff_no_odd_divisor (h3 : 3 ≤ c) (hodd : c % 2 = 1) :
    c.Prime ↔ ∀ j, (3 + 2 * j) * (3 + 2 * j) ≤ c → ¬(3 + 2 * j) ∣ c := by
  constructor
  · intro hc j hle hdvd
    obtain h | h := (Nat.dvd_prime hc).mp hdvd
    · omega
    · have hlt : c * 1 < c * c := Nat.mul_lt_mul_of_pos_left (by omega) (by omega)
      rw [h] at hle
      omega
  · intro h
    by_contra hc
    have hsq := Nat.minFac_sq_le_self (by omega : 0 < c) hc
    have hmin : c.minFac.Prime := Nat.minFac_prime (by omega)
    have hne2 : c.minFac ≠ 2 := by rw [Ne, Nat.minFac_eq_two_iff]; omega
    have hodd' : c.minFac % 2 = 1 := hmin.eq_two_or_odd.resolve_left hne2
    have hge : 2 ≤ c.minFac := hmin.two_le
    obtain ⟨j, hj⟩ : ∃ j, c.minFac = 3 + 2 * j := ⟨(c.minFac - 3) / 2, by omega⟩
    refine h j ?_ ?_
    · rw [← hj, ← sq]; exact hsq
    · rw [← hj]; exact Nat.minFac_dvd c

/-- R152: trial division decides primality. -/
theorem isPrime_iff_prime : isPrime c = true ↔ c.Prime := by
  unfold isPrime
  split
  · rename_i hlt
    exact iff_of_false (by simp) fun hc => absurd hc.two_le (by omega)
  · split
    · rename_i h2
      exact iff_of_true rfl (h2 ▸ Nat.prime_two)
    · split
      · rename_i hne heven
        refine iff_of_false (by simp) fun hc => ?_
        have := hc.eq_two_or_odd
        omega
      · rw [noOddDivisorFrom_spec c c 3 (by omega), prime_iff_no_odd_divisor (by omega) (by omega)]

/-! ### Candidates -/

/-- R151: bit 0 of a candidate is set. -/
theorem cand_odd (r b : Nat) : cand r b % 2 = 1 := by
  have h : (cand r b).testBit 0 = true := by simp [cand]
  simpa using h

/-- R151: the top bit and bit 0 of a candidate are set. -/
theorem lt_cand (hb : 2 ≤ b) : 2 ^ (b - 1) < cand r b := by
  have hone : 1 < 2 ^ (b - 1) := Nat.one_lt_two_pow (by omega)
  have hor : 2 ^ (b - 1) ||| 1 = 2 ^ (b - 1) + 1 := by simpa using (Nat.two_pow_add_eq_or_of_lt hone 1).symm
  have hle : 2 ^ (b - 1) ||| 1 ≤ cand r b := by
    rw [cand, Nat.or_assoc]
    exact Nat.right_le_or
  omega

/-- R151: a candidate has no bit from `b` up. -/
theorem cand_lt (hb : 2 ≤ b) : cand r b < 2 ^ b := by
  have htop : 2 ^ (b - 1) < 2 ^ b := Nat.pow_lt_pow_right (by omega) (by omega)
  have hone : 1 < 2 ^ b := Nat.one_lt_two_pow (by omega)
  exact Nat.or_lt_two_pow (Nat.or_lt_two_pow (Nat.mod_lt _ (by omega)) htop) hone

/-! ### The prime found -/

/-- A prime as `KEYGEN B` and `PRIMEGEN B` ask for it (R142, R154): odd and of exactly `b` bits, above the least such number. -/
structure SizedPrime (b p : Nat) : Prop where
  prime : p.Prime
  odd : p % 2 = 1
  lower : 2 ^ (b - 1) < p
  upper : p < 2 ^ b

theorem SizedPrime.three_le (h : SizedPrime b p) : 3 ≤ p := by
  have htwo := h.prime.two_le
  have hodd := h.odd
  omega

/-- R153: a search hands out only acceptable candidates. -/
theorem primeSearch_found (hb : 2 ≤ b) (h : primeSearch b excl n s = (some p, g)) : p ≠ excl ∧ SizedPrime b p := by
  obtain ⟨t, -, -, ⟨hne, hprime⟩, heq⟩ | ⟨-, heq⟩ := primeSearch_spec b excl n s
  · obtain ⟨rfl, -⟩ : cand (draw^[t + 1] s).toNat b = p ∧ draw^[t + 1] s = g := by
      simpa using heq.symm.trans h
    exact ⟨hne, isPrime_iff_prime.mp hprime, cand_odd _ _, lt_cand hb, cand_lt hb⟩
  · exact absurd (heq.symm.trans h) (by simp)

end Sys2Proof.Machine
end

section
/-! `ENCRYPT` and `DECRYPT` (spec/43_rsa_block.md R131, R132): the two commands (O25, O26), and the RSA law that makes the one undo the
other (R133). -/

namespace Sys2Proof.Machine

variable {s : State}

/-! ### `ENCRYPT` -/

theorem exec_encrypt_zeroModulus (h : s.keys.n.toNat = 0) : exec .encrypt s = .next (s.failedWith 7 8) := by
  change execEncrypt s = _
  rw [execEncrypt, if_pos (BitVec.eq_of_toNat_eq h)]
  rfl

theorem exec_encrypt_tooLarge (hn : s.keys.n.toNat ≠ 0) (hm : s.keys.n.toNat ≤ s.opa.toNat) :
    exec .encrypt s = .next (s.failedWith 3 0) := by
  change execEncrypt s = _
  rw [execEncrypt, if_neg (mt (congrArg BitVec.toNat) hn), if_pos hm]
  rfl

theorem exec_encrypt (hm : s.opa.toNat < s.keys.n.toNat) :
    exec .encrypt s = .next (powerToRes s.opa s.keys.e s.keys.n s) := by
  have hn : s.keys.n.toNat ≠ 0 := Nat.ne_zero_of_lt hm
  change execEncrypt s = _
  rw [execEncrypt, if_neg (mt (congrArg BitVec.toNat) hn), if_neg (Nat.not_le.mpr hm)]

/-- R131: the residue goes to `RES`, and nothing else changes. -/
theorem exists_exec_encrypt (hm : s.opa.toNat < s.keys.n.toNat) :
    ∃ v : Word, v.toNat = s.opa.toNat ^ s.keys.e.toNat % s.keys.n.toNat ∧
      exec .encrypt s = .next { s with res := v, seq := .done } := by
  obtain ⟨v, hv, hend⟩ := exists_powerToRes_eq (Nat.ne_zero_of_lt hm) s.opa s.keys.e s
  exact ⟨v, hv, (exec_encrypt hm).trans (congrArg _ hend)⟩

/-- Settles O25: the two errors in their order, or the power residue. -/
theorem encryptCommand : Obligations.EncryptCommand :=
  ⟨by decide, fun _ => ⟨exec_encrypt_zeroModulus, exec_encrypt_tooLarge, exists_exec_encrypt⟩⟩

/-! ### `DECRYPT` -/

theorem exec_decrypt_zeroModulus (h : s.keys.n.toNat = 0) : exec .decrypt s = .next (s.failedWith 7 8) := by
  change execDecrypt s = _
  rw [execDecrypt, if_pos (BitVec.eq_of_toNat_eq h)]
  rfl

theorem exec_decrypt (hn : s.keys.n.toNat ≠ 0) :
    exec .decrypt s = .next (powerToRes s.opa s.keys.d s.keys.n s) := by
  change execDecrypt s = _
  rw [execDecrypt, if_neg (mt (congrArg BitVec.toNat) hn)]

/-- R132: the residue goes to `RES`, and nothing else changes. -/
theorem exists_exec_decrypt (hn : s.keys.n.toNat ≠ 0) :
    ∃ v : Word, v.toNat = s.opa.toNat ^ s.keys.d.toNat % s.keys.n.toNat ∧
      exec .decrypt s = .next { s with res := v, seq := .done } := by
  obtain ⟨v, hv, hend⟩ := exists_powerToRes_eq hn s.opa s.keys.d s
  exact ⟨v, hv, (exec_decrypt hn).trans (congrArg _ hend)⟩

/-- Settles O26: the modulus 0 ends in the error, every other one in the power residue, which reduces its base. -/
theorem decryptCommand : Obligations.DecryptCommand := by
  refine ⟨by decide, fun s => ⟨exec_decrypt_zeroModulus, fun hn => ?_⟩⟩
  obtain ⟨v, hv, hend⟩ := exists_exec_decrypt hn
  exact ⟨v, hv, hv.trans (Nat.pow_mod _ _ _), hend⟩

/-! ### The RSA law -/

/-- Fermat's little theorem for an exponent that is 1 modulo `p - 1`, for every base, also a multiple of `p`. -/
theorem pow_modEq_self_of_prime {p k : Nat} (hp : p.Prime) (hk0 : k ≠ 0) (hk : k ≡ 1 [MOD p - 1]) (x : Nat) :
    x ^ k ≡ x [MOD p] := by
  have : Fact p.Prime := ⟨hp⟩
  obtain ⟨j, hj⟩ : p - 1 ∣ k - 1 := (Nat.modEq_iff_dvd' (by omega)).mp hk.symm
  obtain rfl : k = (p - 1) * j + 1 := by omega
  rw [← ZMod.natCast_eq_natCast_iff, Nat.cast_pow, pow_succ, pow_mul]
  by_cases hx : (x : ZMod p) = 0
  · rw [hx, mul_zero]
  · rw [ZMod.pow_card_sub_one_eq_one hx, one_pow, one_mul]

/-- R133: raising to an exponent that is 1 modulo `(p - 1) × (q - 1)` keeps every residue modulo `p × q`. Two distinct primes are not
both 2, so the exponent is not 0. -/
theorem pow_mod_mul_of_primes {p q k x : Nat} (hp : p.Prime) (hq : q.Prime) (hne : p ≠ q)
    (hk : k ≡ 1 [MOD (p - 1) * (q - 1)]) (hx : x < p * q) : x ^ k % (p * q) = x := by
  have hphi : 1 < (p - 1) * (q - 1) := by
    have hp2 := hp.two_le
    have hq2 := hq.two_le
    obtain h | h : 2 ≤ p - 1 ∨ 2 ≤ q - 1 := by omega
    · exact Nat.mul_le_mul h (by omega : 1 ≤ q - 1)
    · exact Nat.mul_le_mul (by omega : 1 ≤ p - 1) h
  have hk0 : k ≠ 0 := by
    rintro rfl
    have h01 : (0 : Nat) = 1 := Nat.ModEq.eq_of_lt_of_lt hk (by omega) hphi
    omega
  have hpow : x ^ k ≡ x [MOD p * q] := (Nat.modEq_and_modEq_iff_modEq_mul ((Nat.coprime_primes hp hq).mpr hne)).mp
    ⟨pow_modEq_self_of_prime hp hk0 (hk.of_mul_right _) x, pow_modEq_self_of_prime hq hk0 (hk.of_mul_left _) x⟩
  exact Nat.mod_eq_of_modEq hpow hx

/-- R133 through the commands: where the two exponents together keep the message, `DECRYPT` of `ENCRYPT` gives it back. -/
theorem exec_decrypt_of_encrypt (hm : s.opa.toNat < s.keys.n.toNat)
    (hlaw : s.opa.toNat ^ (s.keys.e.toNat * s.keys.d.toNat) % s.keys.n.toNat = s.opa.toNat) :
    ∃ t u, exec .encrypt s = .next t ∧ t.seq = .done ∧ exec .decrypt { t with opa := t.res } = .next u ∧ u.seq = .done ∧
      u.res = s.opa := by
  obtain ⟨c, hc, henc⟩ := exists_exec_encrypt hm
  obtain ⟨v, hv, hdec⟩ := exists_exec_decrypt (s := { s with opa := c, res := c, seq := .done }) (Nat.ne_zero_of_lt hm)
  have hback : c.toNat ^ s.keys.d.toNat % s.keys.n.toNat = s.opa.toNat := by rw [hc, ← Nat.pow_mod, ← pow_mul, hlaw]
  exact ⟨_, _, henc, rfl, hdec, rfl, BitVec.eq_of_toNat_eq (hv.trans hback)⟩

end Sys2Proof.Machine
end

section
/-! `KEYGEN` (spec/43_rsa_block.md R134 to R136, R142): the search for the public exponent (O28) and that it always succeeds (O29), the
exponent for decryption (O30), the command (O31), and what its key guarantees (O32, and with it O27). -/

namespace Sys2Proof.Machine

variable {b p q phi e : Nat} {s t : State} {g g' : Word32}

/-! ### The public exponent -/

/-- The first candidate of `choose_e(phi)` (R135). -/
def firstExponent (phi : Nat) : Nat := if 65537 < phi then 65537 else 3

theorem chooseE_eq_some_iff : chooseE phi = some e ↔ ∃ t < 64, e = firstExponent phi + 2 * t ∧ e < phi ∧
    Nat.Coprime e phi ∧ ∀ u < t, ¬Nat.Coprime (firstExponent phi + 2 * u) phi :=
  chooseFrom_some_iff phi 64 (firstExponent phi) e

/-- The first of the coprime candidates is the one answered, so no answer means that there is none. -/
theorem chooseE_eq_none_iff : chooseE phi = none ↔
    ∀ t < 64, firstExponent phi + 2 * t < phi → ¬Nat.Coprime (firstExponent phi + 2 * t) phi := by
  constructor
  · intro hnone t ht hlt hcop
    have hex : ∃ t, Nat.Coprime (firstExponent phi + 2 * t) phi := ⟨t, hcop⟩
    have hle : Nat.find hex ≤ t := Nat.find_min' hex hcop
    have hsome := chooseE_eq_some_iff.mpr
      ⟨Nat.find hex, by omega, rfl, by omega, Nat.find_spec hex, fun u hu => Nat.find_min hex hu⟩
    rw [hnone] at hsome
    cases hsome
  · intro h
    rw [Option.eq_none_iff_forall_ne_some]
    intro e he
    obtain ⟨t, ht, rfl, hlt, hcop, -⟩ := chooseE_eq_some_iff.mp he
    exact h t ht hlt hcop

/-- Settles O28: the answer of the bounded search is its first coprime candidate. -/
theorem publicExponentChoice : Obligations.PublicExponentChoice := by
  rintro phi _ rfl
  exact ⟨fun e => chooseE_eq_some_iff, chooseE_eq_none_iff⟩

/-- An exponent found is coprime to `phi` and lies strictly between 0 and it. -/
theorem chooseE_spec (h : chooseE phi = some e) : 0 < e ∧ e < phi ∧ Nat.Coprime e phi := by
  obtain ⟨t, -, he, hlt, hcop, -⟩ := chooseE_eq_some_iff.mp h
  have hfirst : 0 < firstExponent phi := by unfold firstExponent; split <;> omega
  exact ⟨by omega, hlt, hcop⟩

/-- A positive number below the product of some primes is coprime to one of them. -/
theorem exists_coprime_of_lt_prod {ps : Finset Nat} (hps : ∀ p ∈ ps, p.Prime) (hpos : 0 < phi)
    (hlt : phi < ∏ p ∈ ps, p) : ∃ p ∈ ps, Nat.Coprime p phi := by
  by_contra hnone
  push Not at hnone
  have hdvd : ∏ p ∈ ps, p ∣ phi := Finset.prod_primes_dvd _ (fun p hp => (hps p hp).prime)
    fun p hp => Classical.not_not.mp (mt (hps p hp).coprime_iff_not_dvd.mpr (hnone p hp))
  exact absurd (Nat.le_of_dvd hpos hdvd) (Nat.not_le.mpr hlt)

/-- The first six odd primes: their product is above 65538, and they are candidates from 3 on. -/
def smallExponents : Finset Nat := {3, 5, 7, 11, 13, 17}

/-- The first four primes from 65537 on: their product is above `2^64`, and they are candidates from 65537 on. -/
def largeExponents : Finset Nat := {65537, 65539, 65543, 65551}

theorem smallExponents_prime : ∀ p ∈ smallExponents, p.Prime := by
  simp only [smallExponents, Finset.forall_mem_insert, Finset.mem_singleton, forall_eq]
  norm_num

theorem largeExponents_prime : ∀ p ∈ largeExponents, p.Prime := by
  simp only [largeExponents, Finset.forall_mem_insert, Finset.mem_singleton, forall_eq]
  norm_num

theorem smallExponents_candidate : ∀ p ∈ smallExponents, (p - 3) / 2 < 64 ∧ 3 + 2 * ((p - 3) / 2) = p := by decide

theorem largeExponents_candidate : ∀ p ∈ largeExponents, (p - 65537) / 2 < 64 ∧ 65537 + 2 * ((p - 65537) / 2) = p := by
  decide

theorem lt_prod_smallExponents : 65538 < ∏ p ∈ smallExponents, p := by simp [smallExponents]

theorem lt_prod_largeExponents : 2 ^ 64 < ∏ p ∈ largeExponents, p := by simp [largeExponents]

/-- Some candidate is coprime to `phi`, if not always below it: a `phi` of 64 bits is no multiple of all of `largeExponents`, and one up
to 65537 no multiple of all of `smallExponents`. -/
theorem exists_coprime_candidate (hpos : 0 < phi) (hlt : phi < 2 ^ 64) :
    ∃ t < 64, Nat.Coprime (firstExponent phi + 2 * t) phi := by
  unfold firstExponent
  split
  · obtain ⟨p, hp, hcop⟩ := exists_coprime_of_lt_prod largeExponents_prime hpos (hlt.trans lt_prod_largeExponents)
    obtain ⟨ht, hcand⟩ := largeExponents_candidate p hp
    exact ⟨_, ht, hcand.symm ▸ hcop⟩
  · rename_i hsmall
    have hle : phi < 65538 := by omega
    obtain ⟨p, hp, hcop⟩ := exists_coprime_of_lt_prod smallExponents_prime hpos (hle.trans lt_prod_smallExponents)
    obtain ⟨ht, hcand⟩ := smallExponents_candidate p hp
    exact ⟨_, ht, hcand.symm ▸ hcop⟩

/-- U3: some candidate below `phi` is coprime to it: `phi - 1`, where the candidates reach it, and else one of the primes above,
all of which are then below `phi`. -/
theorem exists_chooseE (heven : phi % 2 = 0) (h4 : 4 ≤ phi) (hlt : phi < 2 ^ 64) : ∃ e, chooseE phi = some e := by
  have hfirst : firstExponent phi % 2 = 1 ∧ firstExponent phi < phi := by unfold firstExponent; split <;> omega
  rw [← Option.ne_none_iff_exists', Ne, chooseE_eq_none_iff]
  intro hnone
  by_cases hreach : phi - 1 ≤ firstExponent phi + 126
  · obtain ⟨t, ht⟩ : ∃ t, phi - 1 = firstExponent phi + 2 * t := ⟨(phi - 1 - firstExponent phi) / 2, by omega⟩
    have hcop : Nat.Coprime (phi - 1) phi := (Nat.coprime_self_sub_left (by omega)).mpr (Nat.coprime_one_left phi)
    exact hnone t (by omega) (by omega) (ht ▸ hcop)
  · obtain ⟨t, ht, hcop⟩ := exists_coprime_candidate (by omega) hlt
    exact hnone t ht (by omega) hcop

/-! ### The exponent for decryption -/

/-- R136: the coefficient that the Euclidean algorithm leaves, reduced modulo `phi`, is an inverse modulo `phi`. -/
theorem mul_modinv_modEq (hphi : 0 < phi) (hcop : Nat.gcd e phi = 1) : e * modinv e phi ≡ 1 [MOD phi] := by
  have hphi0 : (phi : Int) ≠ 0 := by omega
  have hinv : ((modinv e phi : Nat) : Int) = euclid (e + 1) phi e 0 1 % phi :=
    Int.toNat_of_nonneg (Int.emod_nonneg _ hphi0)
  have hloop : euclid (e + 1) phi e 0 1 * e ≡ (Nat.gcd phi e : Nat) [ZMOD phi] :=
    euclid_spec phi e (e + 1) phi e 0 1 (by omega) (by simp [Int.ModEq]) (by simp)
  rw [← Int.natCast_modEq_iff, Nat.cast_mul, hinv, mul_comm]
  rw [Nat.gcd_comm, hcop] at hloop
  exact ((Int.mod_modEq _ _).mul_right _).trans hloop

theorem modinv_lt (hphi : 0 < phi) : modinv e phi < phi := by
  have hpos : (0 : Int) < phi := by omega
  have hlt := Int.emod_lt_of_pos (euclid (e + 1) phi e 0 1) hpos
  have hnonneg := Int.emod_nonneg (euclid (e + 1) phi e 0 1) hpos.ne'
  unfold modinv
  omega

/-- R136, for `phi` above 1: the inverse strictly between 0 and `phi`. -/
theorem modinv_spec (hphi : 1 < phi) (hcop : Nat.gcd e phi = 1) :
    0 < modinv e phi ∧ modinv e phi < phi ∧ e * modinv e phi % phi = 1 := by
  have hmul : e * modinv e phi % phi = 1 := Nat.mod_eq_of_modEq (mul_modinv_modEq (by omega) hcop) hphi
  refine ⟨Nat.pos_of_ne_zero fun h0 => ?_, modinv_lt (by omega), hmul⟩
  rw [h0, mul_zero, Nat.zero_mod] at hmul
  omega

/-- Settles O30: `e` can be cancelled modulo `phi`, so there is one inverse only. -/
theorem privateExponentIsTheInverse : Obligations.PrivateExponentIsTheInverse := by
  intro e phi he hlt hcop
  obtain ⟨hpos, hbelow, hmul⟩ := modinv_spec (by omega) hcop
  refine ⟨hpos, hbelow, hmul, fun d _ hd hmul' => ?_⟩
  have hsame : e * d ≡ e * modinv e phi [MOD phi] := hmul'.trans hmul.symm
  exact Nat.ModEq.eq_of_lt_of_lt (hsame.cancel_left_of_coprime (Nat.gcd_comm phi e ▸ hcop)) hd hbelow

/-! ### The two primes -/

/-- What the two searches of `KEYGEN B` hand to its end (R134). -/
structure KeyPrimes (b p q : Nat) : Prop where
  two_le : 2 ≤ b
  le_32 : b ≤ 32
  left : SizedPrime b p
  right : SizedPrime b q
  distinct : p ≠ q

theorem keyPrimes_of_searches (h2 : 2 ≤ b) (h32 : b ≤ 32) (hp : primeSearch b 0 Config.retryMax s.prng = (some p, g))
    (hq : primeSearch b p Config.retryMax g = (some q, g')) : KeyPrimes b p q := by
  obtain ⟨-, hleft⟩ := primeSearch_found h2 hp
  obtain ⟨hne, hright⟩ := primeSearch_found h2 hq
  exact ⟨h2, h32, hleft, hright, hne.symm⟩

theorem KeyPrimes.modulus_lt (h : KeyPrimes b p q) : p * q < 2 ^ (2 * b) := by
  rw [two_mul, pow_add]
  exact Nat.mul_lt_mul'' h.left.upper h.right.upper

theorem KeyPrimes.lt_modulus (h : KeyPrimes b p q) : 2 ^ (2 * b - 2) < p * q := by
  have hexp : 2 * b - 2 = (b - 1) + (b - 1) := by omega
  rw [hexp, pow_add]
  exact Nat.mul_lt_mul'' h.left.lower h.right.lower

/-- Every product of two primes of at most 32 bits fits a register of 64. -/
theorem KeyPrimes.modulus_fits (h : KeyPrimes b p q) : p * q < 2 ^ 64 :=
  h.modulus_lt.trans_le (Nat.pow_le_pow_right (by omega) (by have := h.le_32; omega))

theorem totient_le_modulus (p q : Nat) : (p - 1) * (q - 1) ≤ p * q := Nat.mul_le_mul (Nat.sub_le _ _) (Nat.sub_le _ _)

theorem KeyPrimes.totient_even (h : KeyPrimes b p q) : (p - 1) * (q - 1) % 2 = 0 := by
  have hp : (p - 1) % 2 = 0 := by have := h.left.odd; omega
  rw [Nat.mul_mod, hp, zero_mul, Nat.zero_mod]

theorem KeyPrimes.four_le_totient (h : KeyPrimes b p q) : 4 ≤ (p - 1) * (q - 1) := by
  have hp := h.left.three_le
  have hq := h.right.three_le
  exact Nat.mul_le_mul (by omega : 2 ≤ p - 1) (by omega : 2 ≤ q - 1)

theorem KeyPrimes.exists_exponent (h : KeyPrimes b p q) : ∃ e, chooseE ((p - 1) * (q - 1)) = some e :=
  exists_chooseE h.totient_even h.four_le_totient ((totient_le_modulus p q).trans_lt h.modulus_fits)

theorem wordOfNat_toNat {v : Nat} (h : v < 2 ^ 64) : (BitVec.ofNat 64 v).toNat = v := by
  rw [BitVec.toNat_ofNat, Nat.mod_eq_of_lt h]

/-- R134, R142: nothing is lost of the six values in the key registers. -/
theorem KeyPrimes.keyRegs_toNat (h : KeyPrimes b p q) (he : e < (p - 1) * (q - 1)) :
    (keyRegs p q e).p.toNat = p ∧ (keyRegs p q e).q.toNat = q ∧ (keyRegs p q e).n.toNat = p * q ∧
    (keyRegs p q e).phi.toNat = (p - 1) * (q - 1) ∧ (keyRegs p q e).e.toNat = e ∧
    (keyRegs p q e).d.toNat = modinv e ((p - 1) * (q - 1)) := by
  have hn := h.modulus_fits
  have hphi := (totient_le_modulus p q).trans_lt hn
  have hd : modinv e ((p - 1) * (q - 1)) < (p - 1) * (q - 1) := modinv_lt (by omega)
  have hp : p ≤ p * q := Nat.le_mul_of_pos_right _ h.right.prime.pos
  have hq : q ≤ p * q := Nat.le_mul_of_pos_left _ h.left.prime.pos
  exact ⟨wordOfNat_toNat (by omega), wordOfNat_toNat (by omega), wordOfNat_toNat hn, wordOfNat_toNat hphi,
    wordOfNat_toNat (by omega), wordOfNat_toNat (by omega)⟩

/-! ### `KEYGEN` -/

theorem exec_keygen_illegalSize (hb : ¬(2 ≤ b ∧ b ≤ 32)) : exec (.keygen b) s = .next (s.failedWith 7 2) := by
  change execKeygen b s = _
  rw [← primeSizeLegal_iff, Bool.not_eq_true] at hb
  simp only [execKeygen, hb]
  rfl

section
variable (h2 : 2 ≤ b) (h32 : b ≤ 32)
include h2 h32

theorem exec_keygen_legalSize : exec (.keygen b) s = .next (keygenFirst b { s with keys := KeyRegs.zero }) := by
  change execKeygen b s = _
  simp only [execKeygen, (primeSizeLegal_iff b).mpr ⟨h2, h32⟩]
  rfl

theorem exec_keygen_noFirst (hp : primeSearch b 0 Config.retryMax s.prng = (none, g)) :
    exec (.keygen b) s = .next ({ s with keys := KeyRegs.zero, prng := g }.failedWith 2 1) := by
  rw [exec_keygen_legalSize h2 h32]
  simp only [keygenFirst, hp]
  rfl

variable (hp : primeSearch b 0 Config.retryMax s.prng = (some p, g))
include hp

theorem exec_keygen_first :
    exec (.keygen b) s = .next (keygenSecond b p { s with keys := KeyRegs.zero, prng := g }) := by
  rw [exec_keygen_legalSize h2 h32]
  simp only [keygenFirst, hp]

theorem exec_keygen_noSecond (hq : primeSearch b p Config.retryMax g = (none, g')) :
    exec (.keygen b) s = .next ({ s with keys := KeyRegs.zero, prng := g' }.failedWith 2 2) := by
  rw [exec_keygen_first h2 h32 hp]
  simp only [keygenSecond, hq]
  rfl

variable (hq : primeSearch b p Config.retryMax g = (some q, g'))
include hq

theorem exec_keygen_second :
    exec (.keygen b) s = .next (keygenFinish p q { s with keys := KeyRegs.zero, prng := g' }) := by
  rw [exec_keygen_first h2 h32 hp]
  simp only [keygenSecond, hq]

theorem exec_keygen_noExponent (he : chooseE ((p - 1) * (q - 1)) = none) :
    exec (.keygen b) s = .next ({ s with keys := KeyRegs.zero, prng := g' }.failedWith 2 3) := by
  rw [exec_keygen_second h2 h32 hp hq]
  simp only [keygenFinish, he]
  rfl

theorem exec_keygen_key (he : chooseE ((p - 1) * (q - 1)) = some e) :
    exec (.keygen b) s = .next { s with keys := keyRegs p q e, prng := g', seq := .done } := by
  rw [exec_keygen_second h2 h32 hp hq]
  simp only [keygenFinish, he]
  rfl

end

/-- Settles O31: the size, the two searches and the exponent, one after the other. -/
theorem keygenCommand : Obligations.KeygenCommand := by
  refine ⟨fun b hb => decode_fields 0x22 b (by decide) hb, fun b s => ⟨exec_keygen_illegalSize, fun h2 h32 =>
    ⟨fun g => exec_keygen_noFirst h2 h32, fun p g g' => exec_keygen_noSecond h2 h32, fun p g q g' hp hq => ?_⟩⟩⟩
  split
  · rename_i hnone
    exact exec_keygen_noExponent h2 h32 hp hq hnone
  · rename_i e hsome
    obtain ⟨-, hlt, -⟩ := chooseE_spec hsome
    exact ⟨keyRegs p q e, exec_keygen_key h2 h32 hp hq hsome, (keyPrimes_of_searches h2 h32 hp hq).keyRegs_toNat hlt⟩

/-- Settles O29: the totient of two distinct odd primes of the same size is even, at least 4, and fits 64 bits, so that of the failures of
`KEYGEN` the third stage does not occur. -/
theorem publicExponentIsAlwaysFound : Obligations.PublicExponentIsAlwaysFound := by
  refine ⟨fun _ => exists_chooseE, fun b s t h hfailed => ?_⟩
  by_cases hb : 2 ≤ b ∧ b ≤ 32
  · obtain ⟨h2, h32⟩ := hb
    rcases hp : primeSearch b 0 Config.retryMax s.prng with ⟨_ | p, g⟩
    · obtain rfl := next_inj ((exec_keygen_noFirst h2 h32 hp).symm.trans h)
      simp
    · rcases hq : primeSearch b p Config.retryMax g with ⟨_ | q, g'⟩
      · obtain rfl := next_inj ((exec_keygen_noSecond h2 h32 hp hq).symm.trans h)
        simp
      · obtain ⟨e, he⟩ := (keyPrimes_of_searches h2 h32 hp hq).exists_exponent
        obtain rfl := next_inj ((exec_keygen_key h2 h32 hp hq he).symm.trans h)
        cases hfailed
  · obtain rfl := next_inj ((exec_keygen_illegalSize hb).symm.trans h)
    simp

/-! ### The key of a successful `KEYGEN` -/

/-- A `KEYGEN B` that ends in `done` has found two primes and an exponent, and has put their key into the key registers. -/
theorem exec_keygen_done (h : exec (.keygen b) s = .next t) (hdone : t.seq = .done) : ∃ p q e, KeyPrimes b p q ∧
    chooseE ((p - 1) * (q - 1)) = some e ∧ t.keys = keyRegs p q e := by
  obtain ⟨-, rfl⟩ | ⟨-, stage, g, -, rfl⟩ | ⟨hb, p, g, q, g', e, hp, hq, he, rfl⟩ := execKeygen_cases h
  · cases hdone
  · cases hdone
  · obtain ⟨h2, h32⟩ := (primeSizeLegal_iff b).mp hb
    exact ⟨p, q, e, keyPrimes_of_searches h2 h32 hp hq, he, rfl⟩

/-- Settles O32: the facts about the two primes, the public exponent and its inverse, read from the registers that hold them. -/
theorem keygenGuarantee : Obligations.KeygenGuarantee := by
  rintro b s t h hdone _ _ _ _ _ _ rfl rfl rfl rfl rfl rfl
  obtain ⟨p, q, e, hpq, he, hkeys⟩ := exec_keygen_done h hdone
  obtain ⟨hepos, helt, hcop⟩ := chooseE_spec he
  obtain ⟨hp, hq, hn, hphi, hke, hkd⟩ := hpq.keyRegs_toNat helt
  obtain ⟨hdpos, hdlt, hmul⟩ := modinv_spec (by omega) hcop
  rw [hkeys, hp, hq, hn, hphi, hke, hkd]
  exact ⟨hpq.left.prime, hpq.right.prime, hpq.distinct, hpq.left.odd, hpq.right.odd, hpq.left.lower.le, hpq.left.upper,
    hpq.right.lower.le, hpq.right.upper, rfl, rfl, hepos, helt, hdpos, hdlt, hcop, hmul, hpq.lt_modulus, hpq.modulus_lt⟩

/-- Settles O27: both keys satisfy the RSA law. -/
theorem rsaRoundTrip : Obligations.RsaRoundTrip := by
  refine ⟨fun s p q hp hq hne hn hexp hm => exec_decrypt_of_encrypt hm ?_, fun b s k m h hdone hm => ?_⟩
  · rw [hn] at hm ⊢
    exact pow_mod_mul_of_primes hp hq hne hexp hm
  · obtain ⟨p, q, e, hpq, he, hkeys⟩ := exec_keygen_done h hdone
    obtain ⟨-, helt, hcop⟩ := chooseE_spec he
    obtain ⟨-, -, hn, -, hke, hkd⟩ := hpq.keyRegs_toNat helt
    refine exec_decrypt_of_encrypt (s := { k with opa := m }) hm ?_
    change m.toNat ^ (k.keys.e.toNat * k.keys.d.toNat) % k.keys.n.toNat = m.toNat
    rw [hkeys, hn] at hm
    rw [hkeys, hke, hkd, hn]
    exact pow_mod_mul_of_primes hpq.left.prime hpq.right.prime hpq.distinct (mul_modinv_modEq (by omega) hcop) hm

end Sys2Proof.Machine
end

section
/-! `LDINT` and `STINT` (spec/43_rsa_block.md R139 to R141): the two commands (O34, O35), that they are inverse to each other (O36), and the
size of a payload that `ENCRYPT` takes (R138, O33). -/

namespace Sys2Proof.Machine

variable {s : State}

/-! ### The operand checks -/

/-- `intCheck_eq_none_iff` in the terms of the claims: what R140 and R141 ask of the `DAT` region. -/
theorem intCheck_passes_iff : intCheck s = none ↔ Claims.insideMemory s.dat ∧ s.dat.len.toNat ≤ 8 := by
  rw [intCheck_eq_none_iff, Region.inside_iff_insideMemory]

/-- The two checks in their order. -/
theorem intCheck_fails :
    (¬Claims.insideMemory s.dat → intCheck s = some 4) ∧
    (Claims.insideMemory s.dat → 8 < s.dat.len.toNat → intCheck s = some 6) := by
  have hw : Config.w / 8 = 8 := rfl
  simp only [← Region.inside_iff_insideMemory, intCheck, hw]
  exact ⟨fun hdat => by simp [hdat], fun hdat hlen => by simp [hdat, hlen]⟩

/-- A failed check ends `LDINT` and `STINT`. -/
theorem exec_intCheck_failed {i : Instr} (hi : i ∈ [Instr.ldint, Instr.stint]) {sub : Nat} (h : intCheck s = some sub) :
    exec i s = .next (s.failedWith 7 sub) := by
  simp only [List.mem_cons, List.not_mem_nil, or_false] at hi
  obtain rfl | rfl := hi
  · change execLdint s = _
    rw [execLdint, h]; rfl
  · change execStint s = _
    rw [execStint, h]; rfl

/-! ### Integers and their bytes -/

/-- R139: the digits of a number, put together again. -/
theorem assemble_digits (base v n : Nat) :
    assemble base (fun i => v / base ^ (n - 1 - i) % base) n = v % base ^ n := by
  induction n generalizing v with
  | zero => simp [assemble, Nat.mod_one]
  | succ n ih =>
    have hhigh : assemble base (fun i => v / base ^ (n + 1 - 1 - i) % base) n = v / base % base ^ n := by
      rw [← ih]
      refine assemble_congr _ _ _ _ fun i hi => ?_
      rw [show n + 1 - 1 - i = (n - 1 - i) + 1 by omega, pow_succ', Nat.div_div_eq_div_mul]
    rw [assemble, hhigh, pow_succ', Nat.mod_mul, Nat.add_sub_cancel, Nat.sub_self, pow_zero, Nat.div_one, Nat.add_comm]

theorem byteOfInt_toNat (v len i : Nat) : (byteOfInt v len i).toNat = v / 256 ^ (len - 1 - i) % 256 := by
  rw [byteOfInt, BitVec.toNat_ofNat]
  exact Nat.mod_eq_of_lt (Nat.mod_lt _ (by decide))

theorem intOfRegion_lt (m : Memory) (r : Region) : intOfRegion m r < 256 ^ r.len.toNat :=
  assemble_lt _ _ _ fun _ _ => BitVec.isLt _

/-- R140: what `LDINT` puts into `OPA`, nothing being lost of an integer of at most 8 bytes. -/
def loadedInt (s : State) : Word := BitVec.ofNat 64 (intOfRegion s.mem s.dat)

theorem loadedInt_toNat (hlen : s.dat.len.toNat ≤ 8) : (loadedInt s).toNat = intOfRegion s.mem s.dat := by
  have hpow : 256 ^ s.dat.len.toNat ≤ 256 ^ 8 := Nat.pow_le_pow_right (by omega) hlen
  exact wordOfNat_toNat ((intOfRegion_lt _ _).trans_le hpow)

/-- R141: the memory that a successful `STINT` leaves (`exec_stint`). -/
def storedMemory (s : State) : Memory :=
  storeBytes s.dat.base.toNat (fun _ i => byteOfInt s.res.toNat s.dat.len.toNat i) s.dat.len.toNat s.mem

theorem storedMemory_read_inside (hdat : Claims.insideMemory s.dat) {i : Nat} (hi : i < s.dat.len.toNat) :
    (storedMemory s).read (s.dat.base.toNat + i) = byteOfInt s.res.toNat s.dat.len.toNat i :=
  storeBytes_read_inside _ _ _ _ _ hi hdat

theorem storedMemory_read_outside {a : Nat} (ha : ¬Claims.within s.dat.base.toNat s.dat.len.toNat a) :
    (storedMemory s).read a = s.mem.read a :=
  storeBytes_read_outside _ _ _ _ _ ha

/-! ### The commands -/

theorem exec_ldint (hdat : Claims.insideMemory s.dat) (hlen : s.dat.len.toNat ≤ 8) :
    exec .ldint s = .next { s with opa := loadedInt s, seq := .done } := by
  change execLdint s = _
  rw [execLdint, intCheck_passes_iff.mpr ⟨hdat, hlen⟩]
  rfl

theorem exec_stint_tooLarge (hdat : Claims.insideMemory s.dat) (hlen : s.dat.len.toNat ≤ 8)
    (hres : 256 ^ s.dat.len.toNat ≤ s.res.toNat) : exec .stint s = .next (s.failedWith 7 7) := by
  change execStint s = _
  simp only [execStint, intCheck_passes_iff.mpr ⟨hdat, hlen⟩, if_pos hres]
  rfl

theorem exec_stint (hdat : Claims.insideMemory s.dat) (hlen : s.dat.len.toNat ≤ 8)
    (hres : s.res.toNat < 256 ^ s.dat.len.toNat) :
    exec .stint s = .next { s with mem := storedMemory s, seq := .done } := by
  change execStint s = _
  simp only [execStint, intCheck_passes_iff.mpr ⟨hdat, hlen⟩, if_neg (Nat.not_le.mpr hres)]
  rfl

/-- Settles O34: the two checks in their order, or the integer as a sum. -/
theorem ldintCommand : Obligations.LdintCommand := by
  refine ⟨by decide, fun s => ?_⟩
  obtain ⟨houtside, hlong⟩ := intCheck_fails (s := s)
  have failed {sub : Nat} (h : intCheck s = some sub) := exec_intCheck_failed (i := .ldint) (by decide) h
  exact ⟨fun hdat => failed (houtside hdat), fun hdat hlen => failed (hlong hdat hlen), fun hdat hlen =>
    ⟨loadedInt s, (loadedInt_toNat hlen).trans (assemble_eq_sum _ _ _), exec_ldint hdat hlen⟩⟩

/-- Settles O35: the three checks in their order, or the stored memory with its digits and its other bytes. -/
theorem stintCommand : Obligations.StintCommand := by
  refine ⟨by decide, fun s => ?_⟩
  obtain ⟨houtside, hlong⟩ := intCheck_fails (s := s)
  have failed {sub : Nat} (h : intCheck s = some sub) := exec_intCheck_failed (i := .stint) (by decide) h
  refine ⟨fun hdat => failed (houtside hdat), fun hdat hlen => failed (hlong hdat hlen), exec_stint_tooLarge,
    fun hdat hlen hres => ⟨storedMemory s, exec_stint hdat hlen hres, fun i hi => ?_, fun a => storedMemory_read_outside⟩⟩
  rw [storedMemory_read_inside hdat hi, byteOfInt_toNat]

/-! ### The two conversions are inverse to each other -/

/-- R139: the integer of the bytes that `STINT` stored is the one in `RES`. -/
theorem intOfRegion_storedMemory (hdat : Claims.insideMemory s.dat) (hres : s.res.toNat < 256 ^ s.dat.len.toNat) :
    intOfRegion (storedMemory s) s.dat = s.res.toNat := by
  have hbytes : intOfRegion (storedMemory s) s.dat = s.res.toNat % 256 ^ s.dat.len.toNat := by
    rw [← assemble_digits, intOfRegion]
    refine assemble_congr _ _ _ _ fun i hi => ?_
    rw [storedMemory_read_inside hdat hi, byteOfInt_toNat]
  rw [hbytes, Nat.mod_eq_of_lt hres]

/-- R139: the bytes of the integer that `LDINT` read are the bytes of the region. -/
theorem byteOfInt_intOfRegion (m : Memory) (r : Region) {i : Nat} (hi : i < r.len.toNat) :
    byteOfInt (intOfRegion m r) r.len.toNat i = m.read (r.base.toNat + i) := by
  refine BitVec.eq_of_toNat_eq ?_
  rw [byteOfInt_toNat]
  exact assemble_digit 256 _ _ _ (fun _ _ => BitVec.isLt _) hi

/-- Where `RES` holds the integer of the region, `STINT` leaves every byte as it was. -/
theorem storedMemory_read_of_res_eq (hdat : Claims.insideMemory s.dat) (hres : s.res.toNat = intOfRegion s.mem s.dat)
    (a : Nat) : (storedMemory s).read a = s.mem.read a := by
  by_cases ha : Claims.within s.dat.base.toNat s.dat.len.toNat a
  · obtain ⟨hlo, hhi⟩ := ha
    obtain ⟨i, rfl⟩ := Nat.exists_eq_add_of_le hlo
    have hi : i < s.dat.len.toNat := by omega
    rw [storedMemory_read_inside hdat hi, hres, byteOfInt_intOfRegion _ _ hi]
  · exact storedMemory_read_outside ha

/-- Settles O36: the digits of `RES` make `RES` again, and the digits of the integer read are the bytes it was read from. -/
theorem integerAndBytesAreInverse : Obligations.IntegerAndBytesAreInverse := by
  refine fun s hdat hlen => ⟨fun hres => ?_, ?_⟩
  · have hloaded := loadedInt_toNat (s := { s with mem := storedMemory s, seq := .done }) hlen
    exact ⟨_, _, exec_stint hdat hlen hres, rfl, exec_ldint hdat hlen, rfl,
      BitVec.eq_of_toNat_eq (hloaded.trans (intOfRegion_storedMemory hdat hres))⟩
  · have hfits : (loadedInt s).toNat < 256 ^ s.dat.len.toNat := loadedInt_toNat hlen ▸ intOfRegion_lt _ _
    exact ⟨_, _, exec_ldint hdat hlen, rfl, exec_stint hdat hlen hfits, rfl,
      storedMemory_read_of_res_eq hdat (loadedInt_toNat hlen)⟩

/-! ### The payload that fits a key -/

/-- Settles O33: `L` bytes make an integer below `256^L`, and the modulus of the key is above `2^(2B-2)`. -/
theorem sizedPayloadIsEncrypted : Obligations.SizedPayloadIsEncrypted := by
  intro b s k u h hdone hkeys hdat hfit
  obtain ⟨p, q, e, hpq, he, hkey⟩ := exec_keygen_done h hdone
  obtain ⟨-, helt, -⟩ := chooseE_spec he
  obtain ⟨-, -, hn, -⟩ := hpq.keyRegs_toNat helt
  have hlen : u.dat.len.toNat ≤ 8 := by have := hpq.le_32; omega
  have hbelow : (loadedInt u).toNat < u.keys.n.toNat := by
    rw [loadedInt_toNat hlen, hkeys, hkey, hn]
    calc intOfRegion u.mem u.dat < 256 ^ u.dat.len.toNat := intOfRegion_lt _ _
      _ = 2 ^ (8 * u.dat.len.toNat) := by rw [pow_mul]; norm_num
      _ ≤ 2 ^ (2 * b - 2) := Nat.pow_le_pow_right (by omega) hfit
      _ ≤ p * q := hpq.lt_modulus.le
  exact ⟨_, _, exec_ldint hdat hlen, rfl, exec_encrypt hbelow, rfl⟩

end Sys2Proof.Machine
end

section
/-! The small prime generator (spec/44_prime_generator.md): the draw (O37), the candidate (O38), trial division (O39), the bounded search
(O40), and the commands `PRIMEGEN` (O41) and `PTEST` (O42). -/

namespace Sys2Proof.Machine

variable {b p : Nat} {s : State} {g : Word32}

/-! ### Draws and candidates -/

/-- Settles O37: the three shifts are products and quotients by powers of two, the two to the left cut to 32 bits; the six draws are
computed. -/
theorem drawIsTheXorshiftStep : Obligations.DrawIsTheXorshiftStep := by
  refine ⟨?_, by decide⟩
  rintro s _ _ rfl rfl
  simp only [draw, BitVec.toNat_xor, BitVec.toNat_shiftLeft, BitVec.toNat_ushiftRight, Nat.shiftLeft_eq,
    Nat.shiftRight_eq_div_pow]

/-- R151: between bit 0 and the top bit a candidate has the bits of the value drawn. -/
theorem cand_testBit {i : Nat} (r : Nat) (h0 : 0 < i) (hb : i < b - 1) : (cand r b).testBit i = r.testBit i := by
  have hlt : i < b := by omega
  have htop : b - 1 ≠ i := by omega
  have hone : Nat.testBit 1 i = false := Bool.eq_false_iff.mpr (mt Nat.testBit_one_eq_true_iff_self_eq_zero.mp h0.ne')
  simp [cand, Nat.testBit_mod_two_pow, Nat.testBit_two_pow_of_ne htop, hlt, hone]

/-- R151: 3 is the only odd number of exactly two bits. -/
theorem cand_two (r : Nat) : cand r 2 = 3 := by
  have hlow : 2 ^ (2 - 1) < cand r 2 := lt_cand le_rfl
  have hhigh : cand r 2 < 2 ^ 2 := cand_lt le_rfl
  omega

/-- R151: the draw 0 gives the least candidate. -/
theorem cand_zero (hb : 2 ≤ b) : cand 0 b = 2 ^ (b - 1) + 1 := by
  have hone : 1 < 2 ^ (b - 1) := Nat.one_lt_two_pow (by omega)
  simpa [cand] using (Nat.two_pow_add_eq_or_of_lt hone 1).symm

/-! ### Trial division and the search -/

/-- Settles O39: trial division answers for `Nat.Prime`, which is defined by the divisors. -/
theorem trialDivisionDecidesPrimality : Obligations.TrialDivisionDecidesPrimality :=
  fun _ => isPrime_iff_prime.trans Nat.prime_def

/-- Settles O40: the specification of the search loop, with `Nat.Prime` for the answer of trial division. -/
theorem primeSearchIsBounded : Obligations.PrimeSearchIsBounded := by
  refine ⟨fun b excl n s _ _ => ?_, rfl⟩
  have hsearch := primeSearch_spec b excl n s
  simp only [isPrime_iff_prime, and_assoc] at hsearch
  exact hsearch

/-! ### `PRIMEGEN` -/

theorem exec_primegen_illegalSize (hb : ¬(2 ≤ b ∧ b ≤ 32)) : exec (.primegen b) s = .next (s.failedWith 7 2) := by
  change execPrimegen b s = _
  rw [← primeSizeLegal_iff, Bool.not_eq_true] at hb
  simp only [execPrimegen, hb]
  rfl

section
variable (h2 : 2 ≤ b) (h32 : b ≤ 32)
include h2 h32

theorem exec_primegen_exhausted (h : primeSearch b 0 Config.retryMax s.prng = (none, g)) :
    exec (.primegen b) s = .next ({ s with prng := g }.failedWith 2 1) := by
  change execPrimegen b s = _
  simp only [execPrimegen, (primeSizeLegal_iff b).mpr ⟨h2, h32⟩, h]
  rfl

theorem exec_primegen_found (h : primeSearch b 0 Config.retryMax s.prng = (some p, g)) :
    exec (.primegen b) s = .next { s with res := BitVec.ofNat 64 p, prng := g, seq := .done } := by
  change execPrimegen b s = _
  simp only [execPrimegen, (primeSizeLegal_iff b).mpr ⟨h2, h32⟩, h]
  rfl

end

/-- Settles O38: the odd number, its bounds and its bits, then the size check that both commands make first. -/
theorem candidateFormation : Obligations.CandidateFormation :=
  ⟨fun r _ h2 _ => ⟨cand_odd r _, lt_cand h2, Nat.le_sub_one_of_lt (cand_lt h2), fun _ => cand_testBit r⟩,
    fun _ _ hb => ⟨exec_primegen_illegalSize hb, exec_keygen_illegalSize hb⟩,
    by decide, by decide, by decide, by decide, cand_two⟩

/-- Settles O41: the size, then the two answers of the search; a prime of at most 32 bits fits `RES`. -/
theorem primegenCommand : Obligations.PrimegenCommand := by
  refine ⟨fun b hb => decode_fields 0x30 b (by decide) hb, fun b s => ⟨exec_primegen_illegalSize, fun h2 h32 =>
    ⟨fun g => exec_primegen_exhausted h2 h32, fun p g hfound => ?_⟩⟩⟩
  obtain ⟨-, hsized⟩ := primeSearch_found h2 hfound
  have hfits : p < 2 ^ 64 := hsized.upper.trans_le (Nat.pow_le_pow_right (by omega) (by omega))
  exact ⟨_, wordOfNat_toNat hfits, hsized.prime, hsized.lower.le, hsized.upper, exec_primegen_found h2 h32 hfound⟩

/-! ### `PTEST` -/

theorem exec_ptest_tooLarge (h : 2 ^ 32 ≤ s.opa.toNat) : exec .ptest s = .next (s.failedWith 7 10) := by
  change execPtest s = _
  rw [execPtest, Config.pw_eq, if_pos h]
  rfl

theorem exec_ptest (h : s.opa.toNat < 2 ^ 32) :
    exec .ptest s = .next { s with flag := isPrime s.opa.toNat, seq := .done } := by
  change execPtest s = _
  rw [execPtest, Config.pw_eq, if_neg (Nat.not_le.mpr h)]
  rfl

/-- Settles O42: the operand's size, then trial division. -/
theorem ptestCommand : Obligations.PtestCommand :=
  ⟨by decide, fun _ => ⟨exec_ptest_tooLarge, fun h => ⟨_, isPrime_iff_prime, exec_ptest h⟩⟩⟩

end Sys2Proof.Machine
end

section
/-! The zero state of the generator (spec/44_prime_generator.md R157, O43): a draw is 0 of 0 only, and a search in it examines the one
candidate `2^(B-1) + 1` again and again, which is prime for five sizes. -/

namespace Sys2Proof.Machine

variable {b excl n p w : Nat} {s : State} {g : Word32}

/-! ### A draw of a non-zero state -/

/-- Bit `i` of `x` is bit `i - k` of it, so from the lowest bit up every bit is 0. -/
theorem eq_zero_of_xor_shiftLeft {x : BitVec w} {k : Nat} (hk : 0 < k) (h : x ^^^ (x <<< k) = 0) : x = 0 := by
  have hfix : x = x <<< k := BitVec.xor_eq_zero_iff.mp h
  have hbit : ∀ i, x.getLsbD i = false := by
    intro i
    induction i using Nat.strong_induction_on with
    | _ i ih =>
      rw [hfix, BitVec.getLsbD_shiftLeft]
      by_cases hi : i < k
      · simp [hi]
      · simp [ih (i - k) (by omega)]
  exact BitVec.eq_of_getLsbD_eq fun i _ => by simp [hbit i]

/-- A number that a shift to the right leaves as it is is 0. -/
theorem eq_zero_of_xor_ushiftRight {x : BitVec w} {k : Nat} (hk : 0 < k) (h : x ^^^ (x >>> k) = 0) : x = 0 := by
  have hfix : x.toNat = x.toNat / 2 ^ k := by
    rw [← Nat.shiftRight_eq_div_pow, ← BitVec.toNat_ushiftRight, ← BitVec.xor_eq_zero_iff.mp h]
  refine BitVec.eq_of_toNat_eq ?_
  by_contra hne
  have hlt := Nat.div_lt_self (Nat.pos_of_ne_zero hne) (Nat.one_lt_two_pow hk.ne')
  omega

/-- R157: each of the three steps of a draw keeps a non-zero state non-zero. -/
theorem draw_ne_zero (h : g ≠ 0) : draw g ≠ 0 := fun hdraw =>
  h (eq_zero_of_xor_shiftLeft (by decide) (eq_zero_of_xor_ushiftRight (by decide)
    (eq_zero_of_xor_shiftLeft (by decide) hdraw)))

theorem draw_zero : draw 0 = 0 := by decide

/-! ### A search from a fixed point of the generator -/

/-- An acceptable candidate is the first one examined. -/
theorem primeSearch_fixed_found (hg : draw g = g) (hne : cand g.toNat b ≠ excl) (hprime : (cand g.toNat b).Prime) :
    primeSearch b excl (n + 1) g = (some (cand g.toNat b), g) := by
  simp only [primeSearch, hg]
  exact if_pos ⟨hne, isPrime_iff_prime.mpr hprime⟩

/-- A candidate that is not acceptable is the only one ever examined. -/
theorem primeSearch_fixed_none (hg : draw g = g) (h : cand g.toNat b ≠ excl → ¬(cand g.toNat b).Prime) :
    primeSearch b excl n g = (none, g) := by
  obtain ⟨t, -, -, ⟨hne, hprime⟩, -⟩ | ⟨-, hnone⟩ := primeSearch_spec b excl n g
  · rw [Function.iterate_fixed hg] at hne hprime
    exact absurd (isPrime_iff_prime.mp hprime) (h hne)
  · rwa [Function.iterate_fixed hg] at hnone

/-! ### The candidate of the zero state -/

/-- `2^n + 1` can be prime only where `n` is a power of two, and it is for the first five of them. -/
theorem two_pow_add_one_prime_iff (h2 : 2 ≤ b) (h32 : b ≤ 32) : (2 ^ (b - 1) + 1).Prime ↔ b ∈ [2, 3, 5, 9, 17] := by
  constructor
  · intro hprime
    obtain ⟨m, hm⟩ := Nat.pow_of_pow_add_prime one_lt_two (by omega : b - 1 ≠ 0) hprime
    have hm5 : m < 5 := (Nat.pow_lt_pow_iff_right one_lt_two).mp (by omega : 2 ^ m < 2 ^ 5)
    obtain rfl : b = 2 ^ m + 1 := by omega
    interval_cases m <;> decide
  · intro hb
    simp only [List.mem_cons, List.not_mem_nil, or_false] at hb
    rcases hb with rfl | rfl | rfl | rfl | rfl <;> norm_num

/-! ### The two commands -/

section
variable (h2 : 2 ≤ b) (h32 : b ≤ 32) (hs : s.prng = 0)
include h2 h32 hs

/-- R157: with a prime candidate `PRIMEGEN` leaves it in `RES`, and `KEYGEN` does not find a second one. -/
theorem exec_zeroPrng_prime (hprime : (2 ^ (b - 1) + 1).Prime) :
    exec (.primegen b) s = .next { s with res := BitVec.ofNat 64 (2 ^ (b - 1) + 1), seq := .done } ∧
    exec (.keygen b) s = .next ({ s with keys := KeyRegs.zero }.failedWith 2 2) := by
  have hfix : draw s.prng = s.prng := hs ▸ draw_zero
  have hcand : cand s.prng.toNat b = 2 ^ (b - 1) + 1 := hs ▸ cand_zero h2
  have hfirst : primeSearch b 0 Config.retryMax s.prng = (some (2 ^ (b - 1) + 1), s.prng) :=
    hcand ▸ primeSearch_fixed_found hfix (hcand.trans_ne (Nat.succ_ne_zero _)) (hcand ▸ hprime)
  have hsecond : primeSearch b (2 ^ (b - 1) + 1) Config.retryMax s.prng = (none, s.prng) :=
    primeSearch_fixed_none hfix fun hne => absurd hcand hne
  exact ⟨exec_primegen_found h2 h32 hfirst, exec_keygen_noSecond h2 h32 hfirst hsecond⟩

/-- R157: with a candidate that is not prime the first search of both commands is exhausted. -/
theorem exec_zeroPrng_notPrime (hprime : ¬(2 ^ (b - 1) + 1).Prime) :
    exec (.primegen b) s = .next (s.failedWith 2 1) ∧
    exec (.keygen b) s = .next ({ s with keys := KeyRegs.zero }.failedWith 2 1) := by
  have hfix : draw s.prng = s.prng := hs ▸ draw_zero
  have hcand : cand s.prng.toNat b = 2 ^ (b - 1) + 1 := hs ▸ cand_zero h2
  have hfirst : primeSearch b 0 Config.retryMax s.prng = (none, s.prng) :=
    primeSearch_fixed_none hfix fun _ => hcand ▸ hprime
  exact ⟨exec_primegen_exhausted h2 h32 hfirst, exec_keygen_noFirst h2 h32 hfirst⟩

end

/-- Settles O43: the zero state is a fixed point, and the list is that of the sizes whose candidate in it is prime. -/
theorem zeroPrngOutcomes : Obligations.ZeroPrngOutcomes := by
  refine ⟨draw_zero, fun _ => draw_ne_zero, fun b s h2 h32 hs => ?_⟩
  rw [← two_pow_add_one_prime_iff h2 h32]
  exact ⟨exec_zeroPrng_prime h2 h32 hs, exec_zeroPrng_notPrime h2 h32 hs⟩

end Sys2Proof.Machine
end

section
/-! The system commands (spec/45_system_commands.md R170 to R172): their words and effects, and the step of a polling host that writes
them to `CMD`: `SRST` (O14) and `CLRERR` (O15) in every resting state, `NOP` (O16) in idle and done only. -/

namespace Sys2Proof.Machine

variable {i : Instr} {s : State} {v : Word} {e : HostEvent} {rest : List HostEvent}

/-! ### The effects -/

theorem exec_nop (s : State) : exec .nop s = .next (finish s) := rfl

theorem exec_clrerr (s : State) : exec .clrerr s = .next (clearError s) := rfl

theorem exec_srst (s : State) : exec .srst s = .next (resetRegisters s) := rfl

/-! ### The step that presents the word of a system command -/

theorem decode_encode_of_recovery : ∀ i ∈ [Instr.clrerr, Instr.srst], decode (encode i) = .instr i := by decide

/-- The command word of a write to `CMD` is the low 32 bits of its data (R33). -/
theorem setWidth_eq_of_mod {w : Word32} (hv : v.toNat % 2 ^ 32 = w.toNat) : v.setWidth 32 = w :=
  BitVec.eq_of_toNat_eq ((BitVec.toNat_setWidth 32 v).trans hv)

section
variable (hscript : s.script = e :: rest) (hpoll : noWindow rest) (haccess : e.access = .regWrite 0x10 v)
include hscript hpoll haccess

/-- In idle and done a legal word of a polling host executes in the state just accepted (R87). -/
theorem step_legalWord_noWindow (h : Claims.accepting s) (hw : decode (v.setWidth 32) = .instr i) :
    step s = exec i (acceptCommand (s.popped rest)) := by
  rw [step_legalWord hscript haccess h hw, duringCommand_noWindow (s.popped rest) hpoll]

/-- Every resting state accepts `CLRERR` and `SRST` (R171, R172): idle and done as any command, failed as the exception of R87. -/
theorem step_recovery (hi : i ∈ [Instr.clrerr, Instr.srst]) (hbusy : s.seq ≠ .busy)
    (hv : v.toNat % 2 ^ 32 = (encode i).toNat) : ∃ q, step s = exec i { s.popped rest with seq := q } := by
  have hw : v.setWidth 32 = encode i := setWidth_eq_of_mod hv
  have accepted (h : Claims.accepting s) : step s = exec i { s.popped rest with seq := .busy } :=
    step_legalWord_noWindow hscript hpoll haccess h (hw ▸ decode_encode_of_recovery i hi)
  cases hseq : s.seq with
  | idle => exact ⟨_, accepted (.inl hseq)⟩
  | busy => exact absurd hseq hbusy
  | done => exact ⟨_, accepted (.inr hseq)⟩
  | failed =>
    refine ⟨(s.popped rest).seq, ?_⟩
    rw [step_command hscript haccess hbusy, truncWord, hw]
    simp only [List.mem_cons, List.not_mem_nil, or_false] at hi
    obtain rfl | rfl := hi
    · exact commandWrite_failed_clrerr (s := s.popped rest) hseq
    · exact commandWrite_failed_srst (s := s.popped rest) hseq

end

/-! ### The obligations -/

/-- Settles O14: what `SRST` leaves does not depend on the sequencer state that accepted it. -/
theorem srstResetsEveryRegister : Obligations.SrstResetsEveryRegister := by
  refine ⟨by decide, exec_srst, fun s e rest v hscript hpoll hbusy haccess hv => ?_⟩
  obtain ⟨q, hstep⟩ := step_recovery (i := .srst) hscript hpoll haccess (by simp) hbusy hv
  rw [hstep, exec_srst]
  rfl

/-- Settles O15: `CLRERR` sets the sequencer to done whichever state accepted it. -/
theorem clrerrAcknowledgesTheError : Obligations.ClrerrAcknowledgesTheError := by
  refine ⟨by decide, exec_clrerr, fun s e rest v hscript hpoll hbusy haccess hv => ?_⟩
  obtain ⟨q, hstep⟩ := step_recovery (i := .clrerr) hscript hpoll haccess (by simp) hbusy hv
  rw [hstep, exec_clrerr]
  rfl

/-- Settles O16: idle and done accept the word of `NOP` as any command, and it is none of the two that failed accepts. -/
theorem nopOnlySetsDone : Obligations.NopOnlySetsDone := by
  refine ⟨by decide, exec_nop, fun s e rest v hscript hpoll haccess hv => ?_⟩
  have hw : v.setWidth 32 = 0#32 := setWidth_eq_of_mod hv
  refine ⟨fun hacc => ?_, fun hfailed => ?_⟩
  · have hdecode : decode (v.setWidth 32) = .instr .nop := by rw [hw]; decide
    rw [step_legalWord_noWindow hscript hpoll haccess hacc hdecode, exec_nop]
    rfl
  · rw [step_command hscript haccess (by simp [hfailed]), truncWord, hw]
    exact commandWrite_failed_other (s := s.popped rest) hfailed (by decide) (by decide)

end Sys2Proof.Machine
end

section
/-! Errors (spec/60_exceptions.md R180 to R194): what serves the host in the failed state (O7), the two endings of a command (O18), and what
a command that fails has recorded (O20) and left behind (O19), both read from one inversion of the failing commands. -/

namespace Sys2Proof.Machine

variable {i : Instr} {s t : State} {e : ErrorCause} {v : Word} {w : Word32} {code info : Nat}

/-! ### The failed state -/

/-- Data whose low 32 bits differ from a command word does not present that word (R33). -/
theorem truncWord_ne (h : v.toNat % 2 ^ 32 ≠ w.toNat) : truncWord v ≠ w := by
  rintro rfl
  exact h (BitVec.toNat_setWidth 32 v).symm

/-- Settles O7: the word dropped is neither of the two that failed accepts, and failed is not busy, so the ports keep their rules. -/
theorem failedDropsCommandsAndServesPorts : Obligations.FailedDropsCommandsAndServesPorts := by
  intro s e rest hscript hfailed
  have hbusy : s.seq ≠ .busy := by simp [hfailed]
  obtain ⟨hregRead, hregWrite, -, -⟩ := portTransactionsWhenNotBusy s e rest hscript hbusy
  refine ⟨fun v he hclrerr hsrst => ?_, hregRead, hregWrite, fun a he => ?_, fun a b he => ?_⟩
  · rw [step_command hscript he hbusy]
    exact commandWrite_failed_other (s := s.popped rest) hfailed (truncWord_ne hclrerr) (truncWord_ne hsrst)
  · rw [step_cons s e rest hscript, he, transact_memRead (s := s.popped rest) hbusy, respond_popped, State.popped_mem]
  · rw [step_cons s e rest hscript, he, transact_memWrite (s := s.popped rest) hbusy, State.popped_mem]

/-! ### The endings of a command -/

theorem flagField_eq (flag : Bool) : (if flag then 8 else 0) = 8 * flag.toNat := by cases flag <;> rfl

theorem status_finish (s : State) : (readRegNum 0x11 (finish s)).toNat = 2 + 8 * s.flag.toNat :=
  (statusFields (finish s)).trans (congrArg (2 + ·) (flagField_eq s.flag))

theorem status_failedWith (s : State) (code info : Nat) :
    (readRegNum 0x11 (s.failedWith code info)).toNat = 4 + 8 * s.flag.toNat :=
  (statusFields (s.failedWith code info)).trans (congrArg (4 + ·) (flagField_eq s.flag))

/-- What `raise` leaves is the failed state with the cause's code and information value (R188). -/
theorem raiseError_eq_failedWith (e : ErrorCause) (s : State) : raiseError e s = s.failedWith e.code e.info := rfl

/-- Settles O18: `done` and `raise` by their definitions, and `STATUS` from the sequencer state that they leave. -/
theorem endingsOfACommand : Obligations.EndingsOfACommand := fun s =>
  ⟨rfl, status_finish s, fun n => raiseError_eq_failedWith (.capacity n) s,
    fun n => raiseError_eq_failedWith (.keyGeneration n) s, raiseError_eq_failedWith .messageTooLarge s,
    fun n => raiseError_eq_failedWith (.frameCorruption n) s, fun w => raiseError_eq_failedWith (.illegalCommand w) s,
    fun n => raiseError_eq_failedWith (.illegalOperand n) s, status_failedWith s⟩

/-! ### How a command fails -/

/-- Command `i`, executed from `s`, fails in `t` (R192): a check refused it before it changed anything, or a search for a prime or an
exponent failed after its draws, in `KEYGEN` with the key registers cleared. -/
inductive Fails : Instr → State → State → Prop
  | check {i : Instr} {s : State} {e : ErrorCause} (hcode : e.code ≠ 2) (he : Claims.mayRaise i s e.code e.info) :
      Fails i s (raiseError e s)
  | primegen (b : Nat) (s : State) (g : Word32) :
      Fails (.primegen b) s (raiseError (.keyGeneration 1) { s with prng := g })
  | keygen (b : Nat) (s : State) (g : Word32) {stage : Nat} (hstage : stage ∈ [1, 2, 3]) :
      Fails (.keygen b) s (raiseError (.keyGeneration stage) { s with keys := KeyRegs.zero, prng := g })

theorem Fails.operand {sub : Nat} (h : Claims.mayRaise i s 7 sub) : Fails i s (raiseError (.illegalOperand sub) s) :=
  .check (e := .illegalOperand sub) (by simp [ErrorCause.code]) h

/-- Every command that ends in the failed state has failed so. -/
theorem exec_fails (h : exec i s = .next t) (hfailed : t.seq = .failed) : Fails i s t := by
  cases i with
  | nop => obtain rfl := execNop_cases h; cases hfailed
  | clrerr => obtain rfl := execClrerr_cases h; cases hfailed
  | srst => obtain rfl := execSrst_cases h; cases hfailed
  | modexp =>
    obtain ⟨-, rfl⟩ | ⟨-, rfl⟩ := execModexp_cases h
    · exact .operand ⟨rfl, rfl⟩
    · cases hfailed
  | encrypt =>
    obtain ⟨-, rfl⟩ | ⟨-, -, rfl⟩ | ⟨-, -, rfl⟩ := execEncrypt_cases h
    · exact .operand (.inl ⟨rfl, rfl⟩)
    · exact .check (by decide) (.inr ⟨rfl, rfl⟩)
    · cases hfailed
  | decrypt =>
    obtain ⟨-, rfl⟩ | ⟨-, rfl⟩ := execDecrypt_cases h
    · exact .operand ⟨rfl, rfl⟩
    · cases hfailed
  | keygen b =>
    obtain ⟨-, rfl⟩ | ⟨-, stage, g, hstage, rfl⟩ | ⟨-, p, g, q, g', x, -, -, -, rfl⟩ := execKeygen_cases h
    · exact .operand (.inl ⟨rfl, rfl⟩)
    · exact .keygen b s g hstage
    · cases hfailed
  | ldint =>
    obtain ⟨sub, hsub, rfl⟩ | ⟨-, rfl⟩ := execLdint_cases h
    · exact .operand ⟨rfl, intCheck_mem s sub hsub⟩
    · cases hfailed
  | stint =>
    obtain ⟨sub, hsub, rfl⟩ | ⟨-, -, rfl⟩ | ⟨-, -, rfl⟩ := execStint_cases h
    · exact .operand ⟨rfl, List.mem_append_left [7] (intCheck_mem s sub hsub)⟩
    · exact .operand ⟨rfl, by decide⟩
    · cases hfailed
  | primegen b =>
    obtain ⟨-, rfl⟩ | ⟨-, g, -, rfl⟩ | ⟨-, p, g, -, rfl⟩ := execPrimegen_cases h
    · exact .operand (.inl ⟨rfl, rfl⟩)
    · exact .primegen b s g
    · cases hfailed
  | ptest =>
    obtain ⟨-, rfl⟩ | ⟨-, rfl⟩ := execPtest_cases h
    · exact .operand ⟨rfl, rfl⟩
    · cases hfailed
  | pack k =>
    obtain ⟨sub, hsub, rfl⟩ | ⟨-, -, rfl⟩ | ⟨-, -, rfl⟩ := execPack_cases h
    · exact .operand (.inl ⟨rfl, codecCheck_mem k s sub hsub⟩)
    · exact .check (by simp [ErrorCause.code]) (.inr ⟨rfl, rfl⟩)
    · cases hfailed
  | unpack k =>
    obtain ⟨sub, hsub, rfl⟩ | ⟨-, -, rfl⟩ | ⟨-, -, -, rfl⟩ | ⟨-, -, -, rfl⟩ := execUnpack_cases h
    · exact .operand (.inl ⟨rfl, List.mem_append_left [9] (codecCheck_mem k s sub hsub)⟩)
    · exact .operand (.inl ⟨rfl, by decide⟩)
    · exact .check (by simp [ErrorCause.code]) (.inr ⟨rfl, rfl⟩)
    · cases hfailed
  | fits k =>
    obtain ⟨-, rfl⟩ | ⟨-, rfl⟩ := execFits_cases h
    · exact .operand ⟨rfl, rfl⟩
    · cases hfailed

/-! ### What a failed command has recorded -/

/-- `n` bits make no more than `n` groups, for the group size 0 (which no command accepts) too. -/
theorem groups_le_count (n k : Nat) : (n + k - 1) / k ≤ n := by
  cases k with
  | zero => simp
  | succ k => exact (ceilDiv_le_iff n (k + 1) n (Nat.succ_pos k)).mpr (Nat.le_mul_of_pos_right n (Nat.succ_pos k))

/-- Every information value fits `ERRINFO` (R187): the slots of `PACK` saturate, those of `UNPACK` are no more than the bits counted in
`BITCNT`, the others are small. -/
theorem info_lt_of_mayRaise (h : Claims.mayRaise i s code info) : info < 2 ^ 32 := by
  have hcount := s.bitcnt.isLt
  cases i with
  | nop | clrerr | srst => exact h.elim
  | unpack k =>
    have hslots := groups_le_count s.bitcnt.toNat k
    simp only [Claims.mayRaise, List.mem_cons, List.not_mem_nil, or_false] at h
    omega
  | _ =>
    simp only [Claims.mayRaise, List.mem_cons, List.not_mem_nil, or_false] at h
    omega

/-- An error that a command may raise is recorded as it is. -/
theorem mayRaise_recorded (u : State) (he : Claims.mayRaise i s e.code e.info) :
    Claims.mayRaise i s (raiseError e u).errcode.toNat (raiseError e u).errinfo.toNat := by
  rwa [raiseError_errcode, raiseError_errinfo, BitVec.toNat_ofNat, BitVec.toNat_ofNat, Nat.mod_eq_of_lt e.code_lt,
    Nat.mod_eq_of_lt (info_lt_of_mayRaise he)]

/-- Settles O20: each way to fail raises an error that the command may raise. -/
theorem eachCommandRaisesItsOwnErrors : Obligations.EachCommandRaisesItsOwnErrors := by
  intro i s t h hfailed
  cases exec_fails h hfailed with
  | check _ he => exact mayRaise_recorded s he
  | primegen b _ g => exact mayRaise_recorded (e := .keyGeneration 1) _ (.inr ⟨rfl, rfl⟩)
  | keygen b _ g hstage => exact mayRaise_recorded (e := .keyGeneration _) _ (.inr ⟨rfl, hstage⟩)

/-! ### What a failed command has left behind -/

/-- The one code other than 2 that `KEYGEN` may raise is that of `IllegalOperand`. -/
theorem keygen_code_eq_seven {b : Nat} (h : Claims.mayRaise (.keygen b) s code info) (hcode : code ≠ 2) : code = 7 := by
  obtain ⟨h7, -⟩ | ⟨h2, -⟩ := h
  · exact h7
  · exact absurd h2 hcode

/-- Settles O19: a failed check changed nothing; a failed search, which has code 2, changed `PRNG` and, in `KEYGEN`, cleared the keys. -/
theorem failedCommandsAreAllOrNothing : Obligations.FailedCommandsAreAllOrNothing := by
  intro i s t h hfailed
  cases exec_fails h hfailed with
  | check hcode he =>
    refine ⟨rfl, fun _ _ => rfl, fun _ => rfl, ?_, fun _ _ _ => rfl⟩
    rintro b rfl
    refine .inl ⟨?_, rfl, rfl⟩
    rw [raiseError_errcode, keygen_code_eq_seven he hcode]
    rfl
  | primegen b _ g =>
    have hcode : 2#32 ≠ 7#32 := by decide
    exact ⟨rfl, fun _ hne => absurd rfl (hne b), fun _ => rfl, nofun, fun _ _ h7 => absurd h7 hcode⟩
  | keygen b _ g hstage =>
    exact ⟨rfl, fun hne _ => absurd rfl (hne b), fun hne => absurd rfl (hne b), fun _ _ => .inr ⟨rfl, rfl⟩, nofun⟩

end Sys2Proof.Machine
end

section
/-! Hazards (spec/70_reset_and_hazards.md R213 to R216): every step and every command answers a next state (O52), the transactions of the
busy window disturb nothing (O8), and a polling host takes no free value (O9). -/

namespace Sys2Proof.Machine

variable {i : Instr} {s t u : State} {a : Access} {w : Word32} {v : Word} {e : HostEvent} {rest window : List HostEvent}

/-! ### What the host has read -/

/-- The state with another record of what the host has read and of how many free values it has taken (log entries 3 and 8). -/
def State.withReads (s : State) (rs : List Response) (n : Nat) : State := { s with responses := rs, freeIndex := n }

/-- The transactions of a window change the record of the reads alone (R214). -/
theorem runWindow_eq_withReads (window : List HostEvent) (s : State) :
    runWindow window s = s.withReads (runWindow window s).responses (runWindow window s).freeIndex := by
  obtain ⟨rs, n, h⟩ := runWindow_cases window s
  rw [h]
  rfl

/-! ### The end of every command -/

/-- Every command ends (R156, R216), and what the host has read has no part in how: each branch is taken on the rest of the state. -/
theorem exists_exec_withReads (i : Instr) (s : State) :
    ∃ t : State, ∀ rs n, exec i (s.withReads rs n) = .next (t.withReads rs n) := by
  cases i with
  | nop => exact ⟨finish s, fun _ _ => exec_nop _⟩
  | clrerr => exact ⟨clearError s, fun _ _ => exec_clrerr _⟩
  | srst => exact ⟨resetRegisters s, fun _ _ => exec_srst _⟩
  | modexp =>
    by_cases hn : s.opc.toNat = 0
    · exact ⟨s.failedWith 7 8, fun _ _ => exec_modexp_zeroModulus hn⟩
    · exact ⟨powerToRes s.opa s.opb s.opc s, fun _ _ => exec_modexp hn⟩
  | encrypt =>
    by_cases hn : s.keys.n.toNat = 0
    · exact ⟨s.failedWith 7 8, fun _ _ => exec_encrypt_zeroModulus hn⟩
    · obtain hm | hm := Nat.lt_or_ge s.opa.toNat s.keys.n.toNat
      · exact ⟨powerToRes s.opa s.keys.e s.keys.n s, fun _ _ => exec_encrypt hm⟩
      · exact ⟨s.failedWith 3 0, fun _ _ => exec_encrypt_tooLarge hn hm⟩
  | decrypt =>
    by_cases hn : s.keys.n.toNat = 0
    · exact ⟨s.failedWith 7 8, fun _ _ => exec_decrypt_zeroModulus hn⟩
    · exact ⟨powerToRes s.opa s.keys.d s.keys.n s, fun _ _ => exec_decrypt hn⟩
  | keygen b =>
    by_cases hb : 2 ≤ b ∧ b ≤ 32
    · obtain ⟨h2, h32⟩ := hb
      rcases hp : primeSearch b 0 Config.retryMax s.prng with ⟨_ | p, g⟩
      · exact ⟨State.failedWith { s with keys := KeyRegs.zero, prng := g } 2 1, fun _ _ => exec_keygen_noFirst h2 h32 hp⟩
      · rcases hq : primeSearch b p Config.retryMax g with ⟨_ | q, g'⟩
        · exact ⟨State.failedWith { s with keys := KeyRegs.zero, prng := g' } 2 2, fun _ _ =>
            exec_keygen_noSecond h2 h32 hp hq⟩
        · cases he : chooseE ((p - 1) * (q - 1)) with
          | none =>
            exact ⟨State.failedWith { s with keys := KeyRegs.zero, prng := g' } 2 3, fun _ _ =>
              exec_keygen_noExponent h2 h32 hp hq he⟩
          | some x =>
            exact ⟨{ s with keys := keyRegs p q x, prng := g', seq := .done }, fun _ _ => exec_keygen_key h2 h32 hp hq he⟩
    · exact ⟨s.failedWith 7 2, fun _ _ => exec_keygen_illegalSize hb⟩
  | ldint =>
    cases hcheck : intCheck s with
    | none =>
      obtain ⟨hdat, hlen⟩ := intCheck_passes_iff.mp hcheck
      exact ⟨{ s with opa := loadedInt s, seq := .done }, fun _ _ => exec_ldint hdat hlen⟩
    | some sub => exact ⟨s.failedWith 7 sub, fun _ _ => exec_intCheck_failed (by decide) hcheck⟩
  | stint =>
    cases hcheck : intCheck s with
    | none =>
      obtain ⟨hdat, hlen⟩ := intCheck_passes_iff.mp hcheck
      obtain hres | hres := Nat.lt_or_ge s.res.toNat (256 ^ s.dat.len.toNat)
      · exact ⟨{ s with mem := storedMemory s, seq := .done }, fun _ _ => exec_stint hdat hlen hres⟩
      · exact ⟨s.failedWith 7 7, fun _ _ => exec_stint_tooLarge hdat hlen hres⟩
    | some sub => exact ⟨s.failedWith 7 sub, fun _ _ => exec_intCheck_failed (by decide) hcheck⟩
  | primegen b =>
    by_cases hb : 2 ≤ b ∧ b ≤ 32
    · obtain ⟨h2, h32⟩ := hb
      rcases hp : primeSearch b 0 Config.retryMax s.prng with ⟨_ | p, g⟩
      · exact ⟨State.failedWith { s with prng := g } 2 1, fun _ _ => exec_primegen_exhausted h2 h32 hp⟩
      · exact ⟨{ s with res := BitVec.ofNat 64 p, prng := g, seq := .done }, fun _ _ => exec_primegen_found h2 h32 hp⟩
    · exact ⟨s.failedWith 7 2, fun _ _ => exec_primegen_illegalSize hb⟩
  | ptest =>
    obtain hp | hp := Nat.lt_or_ge s.opa.toNat (2 ^ 32)
    · exact ⟨{ s with flag := isPrime s.opa.toNat, seq := .done }, fun _ _ => exec_ptest hp⟩
    · exact ⟨s.failedWith 7 10, fun _ _ => exec_ptest_tooLarge hp⟩
  | pack k =>
    cases hcheck : codecCheck k s with
    | none =>
      obtain hfull | hroom := Nat.lt_or_ge s.buf.len.toNat (packSlots k s)
      · exact ⟨s.failedWith 1 (min (packSlots k s) (2 ^ 32 - 1)), fun _ _ => exec_pack_overfull hcheck hfull⟩
      · exact ⟨finish { s with mem := packedMemory k s }, fun _ _ => exec_pack_fitting hcheck hroom⟩
    | some sub => exact ⟨s.failedWith 7 sub, fun _ _ => exec_codecCheck_failed (k := k) (by simp) hcheck⟩
  | unpack k =>
    cases hcheck : codecCheck k s with
    | none =>
      obtain hout | hout := Nat.lt_or_ge s.dat.len.toNat (unpackBytes s)
      · exact ⟨s.failedWith 7 9, fun _ _ => exec_unpack_noOutputRoom hcheck hout⟩
      · obtain hslots | hslots := Nat.lt_or_ge s.buf.len.toNat (unpackSlots k s)
        · exact ⟨s.failedWith 5 (unpackSlots k s), fun _ _ => exec_unpack_tooFewSlots hcheck hout hslots⟩
        · exact ⟨finish { s with mem := unpackedMemory k s }, fun _ _ => exec_unpack_fitting hcheck hout hslots⟩
    | some sub => exact ⟨s.failedWith 7 sub, fun _ _ => exec_codecCheck_failed (k := k) (by simp) hcheck⟩
  | fits k =>
    by_cases hk : 1 ≤ k ∧ k ≤ 4
    · exact ⟨finish { s with flag := fitsFlag s.buf.len.toNat k s.hdrbits.toNat s.bitcnt.toNat }, fun _ _ => exec_fits hk⟩
    · exact ⟨s.failedWith 7 1, fun _ _ => exec_fits_illegalGroupSize hk⟩

theorem exists_exec (i : Instr) (s : State) : ∃ t, exec i s = .next t := by
  obtain ⟨t, h⟩ := exists_exec_withReads i s
  exact ⟨_, h s.responses s.freeIndex⟩

/-- An accepted word ends in a state that depends on the reads of its window in their record alone (R87, R214). -/
theorem exists_executeWord_withReads (w : Word32) (u : State) : ∃ t : State, ∀ s rs n, duringCommand s = u.withReads rs n →
    executeWord w s = .next (t.withReads rs n) := by
  cases hw : decode w with
  | instr i =>
    obtain ⟨t, ht⟩ := exists_exec_withReads i u
    exact ⟨t, fun s rs n hd => by rw [executeWord_instr hw, hd, ht]⟩
  | illegal why => exact ⟨raiseError (.illegalCommand w) u, fun s rs n hd => by rw [executeWord_illegal hw, hd]; rfl⟩

/-! ### Every step answers a next state -/

theorem exists_executeWord (w : Word32) (s : State) : ∃ t, executeWord w s = .next t := by
  obtain ⟨t, ht⟩ := exists_executeWord_withReads w (duringCommand s)
  exact ⟨_, ht s (duringCommand s).responses (duringCommand s).freeIndex rfl⟩

theorem exists_commandWrite (w : Word32) (s : State) : ∃ t, commandWrite w s = .next t := by
  unfold commandWrite
  cases s.seq with
  | idle | done => exact exists_executeWord w s
  | busy => exact ⟨s, rfl⟩
  | failed =>
    dsimp only
    split_ifs
    · exact exists_exec .clrerr s
    · exact exists_exec .srst s
    · exact ⟨s, rfl⟩

theorem exists_transact (a : Access) (s : State) : ∃ t, transact a s = .next t := by
  by_cases hbusy : s.seq = .busy
  · exact ⟨_, transact_busy hbusy a⟩
  · cases a with
    | regRead r => exact ⟨_, transact_regRead hbusy r⟩
    | regWrite r v =>
      by_cases hr : r = cmdNumber
      · rw [hr, transact_command hbusy]
        exact exists_commandWrite _ s
      · exact ⟨_, transact_regWrite hbusy hr v⟩
    | memRead b => exact ⟨_, transact_memRead hbusy b⟩
    | memWrite b v => exact ⟨_, transact_memWrite hbusy b v⟩

/-- Settles O52: the host's transactions one by one, and the commands, of which each ends. -/
theorem everyStepAnswersANextState : Obligations.EveryStepAnswersANextState := by
  refine ⟨fun s => ?_, exists_exec⟩
  cases hscript : s.script with
  | nil => exact ⟨s, by rw [step, runNext, hscript]⟩
  | cons e rest =>
    rw [step_cons s e rest hscript]
    exact exists_transact e.access _

/-! ### The busy window -/

/-- The transactions that fall into the window are those marked so up to the first that is not. -/
theorem duringCommand_append (hwindow : ∀ x ∈ window, x.inWindow = true) (hpoll : noWindow rest) :
    duringCommand (s.popped (window ++ rest)) = runWindow window (acceptCommand (s.popped rest)) := by
  have hrest : rest.takeWhile (fun x => x.inWindow) = [] ∧ rest.dropWhile (fun x => x.inWindow) = rest := by
    cases rest with
    | nil => exact ⟨rfl, rfl⟩
    | cons x xs => simp [hpoll x rfl]
  obtain ⟨htake, hdrop⟩ := hrest
  rw [duringCommand, windowOf, withoutWindow, State.popped_script, List.takeWhile_append_of_pos hwindow,
    List.dropWhile_append_of_pos hwindow, htake, hdrop, List.append_nil]
  rfl

/-- The step of a command in terms of its window: the same end for every window, with the reads of that window recorded. -/
theorem exists_step_window (hacc : Claims.accepting s) (haccess : e.access = .regWrite 0x10 v) (hpoll : noWindow rest) :
    ∃ t : State, ∀ window : List HostEvent, (∀ x ∈ window, x.inWindow = true) →
      step { s with script := e :: (window ++ rest) } =
        .next (t.withReads (runWindow window (acceptCommand (s.popped rest))).responses
          (runWindow window (acceptCommand (s.popped rest))).freeIndex) := by
  obtain ⟨t, ht⟩ := exists_executeWord_withReads (truncWord v) (acceptCommand (s.popped rest))
  refine ⟨t, fun window hwindow => ?_⟩
  rw [step_accepting (s := { s with script := e :: (window ++ rest) }) rfl haccess hacc]
  exact ht _ _ _ ((duringCommand_append hwindow hpoll).trans (runWindow_eq_withReads _ _))

/-- `STATUS` of an executing command (R30, R31): `BUSY` and the `FLAG` from before it. -/
theorem readReg_status_acceptCommand (s : State) :
    readReg .status (acceptCommand s) = BitVec.ofNat 64 (1 + 8 * s.flag.toNat) := by
  rw [readReg, statusWord, acceptCommand_flag, acceptCommand_seq]
  cases s.flag <;> rfl

theorem busyAccess_regRead_responses (r : RegNum) (s : State) :
    ∃ x, (busyAccess (.regRead r) s).responses = s.responses ++ [.word x] := by
  rw [busyAccess]
  split
  · exact ⟨_, rfl⟩
  · exact ⟨_, rfl⟩

/-- Settles O8: the step ends as `exists_step_window` says, the window of no transaction included. -/
theorem busyWindowDisturbsNothing : Obligations.BusyWindowDisturbsNothing := by
  intro s e rest v hacc haccess hpoll
  obtain ⟨t, ht⟩ := exists_step_window hacc haccess hpoll
  refine ⟨fun window hwindow => ⟨_, _, ht window hwindow, ht [] (by simp), rfl⟩, fun a => ?_⟩
  refine ⟨_, ht [{ access := a, inWindow := true }] (by simp), ?_, ?_, ?_, ?_, ?_⟩
  · rintro rfl
    exact congrArg (fun x => [Response.word x]) (readReg_status_acceptCommand (s.popped rest))
  · rintro r rfl
    exact busyAccess_regRead_responses r (acceptCommand (s.popped rest))
  · rintro b rfl
    exact ⟨_, rfl⟩
  · rintro r x rfl
    rfl
  · rintro b x rfl
    rfl

/-! ### A host that polls -/

theorem State.hostPolls.of_subset (hs : s.hostPolls) (h : t.script ⊆ s.script) : t.hostPolls :=
  fun e he => hs e (h he)

/-- From `s` to `t` no free value was taken, and no transaction came into the script. -/
structure TakesNoFreeValue (s t : State) : Prop where
  freeIndex : t.freeIndex = s.freeIndex
  script : t.script ⊆ s.script

theorem TakesNoFreeValue.refl (s : State) : TakesNoFreeValue s s := ⟨rfl, List.Subset.refl _⟩

theorem TakesNoFreeValue.trans (h : TakesNoFreeValue s t) (h' : TakesNoFreeValue t u) : TakesNoFreeValue s u :=
  ⟨h'.freeIndex.trans h.freeIndex, List.Subset.trans h'.script h.script⟩

/-- The one read of the busy window that takes no free value is that of `STATUS` (R214). -/
theorem runWindow_freeIndex (hpolls : ∀ e ∈ window, e.access = .regRead statusNumber) (s : State) :
    (runWindow window s).freeIndex = s.freeIndex := by
  induction window generalizing s with
  | nil => rfl
  | cons e window ih =>
    rw [List.forall_mem_cons] at hpolls
    obtain ⟨he, hwindow⟩ := hpolls
    rw [runWindow, ih hwindow, he, busyAccess, if_pos rfl, respond_freeIndex]

theorem takesNoFreeValue_duringCommand (hs : s.hostPolls) : TakesNoFreeValue s (duringCommand s) where
  freeIndex := runWindow_freeIndex (fun e he => hs e (List.takeWhile_subset _ he) (List.mem_takeWhile_imp he)) _
  script := by
    rw [duringCommand, runWindow_eq_withReads]
    exact List.dropWhile_subset _

/-- No command touches the model's own record of the host, `SRST` included (log entry 17). -/
theorem takesNoFreeValue_exec (h : exec i s = .next t) : TakesNoFreeValue s t := by
  by_cases hi : i = .srst
  · subst hi
    obtain rfl := execSrst_cases h
    exact ⟨rfl, List.Subset.refl _⟩
  · obtain ⟨-, -, -, -, -, -, hscript, -, hfree, -⟩ := commandsWriteOnlyTheirRegisters i s t h hi
    exact ⟨hfree, hscript ▸ List.Subset.refl _⟩

theorem takesNoFreeValue_commandWrite (hs : s.hostPolls) (h : commandWrite w s = .next t) : TakesNoFreeValue s t := by
  obtain rfl | ⟨-, hx⟩ | ⟨-, hx⟩ | ⟨-, ⟨i, -, hx⟩ | ⟨why, -, rfl⟩⟩ := commandWrite_cases w s t h
  · exact .refl _
  · exact takesNoFreeValue_exec hx
  · exact takesNoFreeValue_exec hx
  · exact (takesNoFreeValue_duringCommand hs).trans (takesNoFreeValue_exec hx)
  · exact (takesNoFreeValue_duringCommand hs).trans ⟨rfl, List.Subset.refl _⟩

theorem takesNoFreeValue_transact (hs : s.hostPolls) (hbusy : s.seq ≠ .busy) (h : transact a s = .next t) :
    TakesNoFreeValue s t := by
  cases a with
  | regRead r =>
    obtain rfl := next_inj ((transact_regRead hbusy r).symm.trans h)
    exact ⟨rfl, List.Subset.refl _⟩
  | regWrite r v =>
    by_cases hr : r = cmdNumber
    · rw [hr, transact_command hbusy] at h
      exact takesNoFreeValue_commandWrite hs h
    · obtain rfl := next_inj ((transact_regWrite hbusy hr v).symm.trans h)
      exact ⟨writeRegNum_freeIndex r v s, (writeRegNum_script r v s) ▸ List.Subset.refl _⟩
  | memRead b =>
    obtain rfl := next_inj ((transact_memRead hbusy b).symm.trans h)
    exact ⟨rfl, List.Subset.refl _⟩
  | memWrite b v =>
    obtain rfl := next_inj ((transact_memWrite hbusy b v).symm.trans h)
    exact ⟨rfl, List.Subset.refl _⟩

/-- Settles O9: the transaction at the head of the script takes no free value, and a host with less left to do still polls. -/
theorem pollingHostTakesNoFreeValue : Obligations.PollingHostTakesNoFreeValue := by
  intro s t hbusy hs h
  obtain ⟨-, rfl⟩ | ⟨e, rest, hscript, ht⟩ := step_cases s t h
  · exact ⟨rfl, hs⟩
  · have hpop : (s.popped rest).hostPolls := hs.of_subset (hscript ▸ List.subset_cons_self e rest)
    have htake := takesNoFreeValue_transact hpop hbusy ht
    exact ⟨htake.freeIndex, hpop.of_subset htake.script⟩

end Sys2Proof.Machine
end

section
/-! What the commands do in the reset state (spec/70_reset_and_hazards.md R212, O17), read from the meanings of the commands: both regions
are empty, so no check of a region fails and no byte is stored. -/

namespace Sys2Proof.Machine

variable {k : Nat}

theorem codecCheck_reset (hk : 1 ≤ k ∧ k ≤ 4) : codecCheck k State.reset = none :=
  codecCheck_passes_iff.mpr ⟨hk, Nat.zero_le _, Nat.zero_le _, fun ⟨hpos, _⟩ => absurd hpos (Nat.lt_irrefl 0)⟩

/-- No bits make no groups. -/
theorem ceilDiv_zero (hk : 1 ≤ k ∧ k ≤ 4) : ceilDiv 0 k = 0 :=
  Nat.le_zero.mp ((ceilDiv_le_iff 0 k 0 hk.1).mpr (Nat.zero_le _))

theorem exec_pack_reset (hk : 1 ≤ k ∧ k ≤ 4) : exec (.pack k) State.reset = .next { State.reset with seq := .done } := by
  have hslots : packSlots k State.reset = 0 := ceilDiv_zero hk
  rw [exec_pack_fitting (codecCheck_reset hk) (hslots ▸ Nat.zero_le _), packedMemory, hslots]
  rfl

theorem exec_unpack_reset (hk : 1 ≤ k ∧ k ≤ 4) :
    exec (.unpack k) State.reset = .next { State.reset with seq := .done } := by
  have hslots : unpackSlots k State.reset = 0 := ceilDiv_zero hk
  exact exec_unpack_fitting (codecCheck_reset hk) (Nat.zero_le _) (hslots ▸ Nat.zero_le _)

theorem exec_fits_reset (hk : 1 ≤ k ∧ k ≤ 4) :
    exec (.fits k) State.reset = .next { State.reset with seq := .done, flag := true } := by
  have hfits : fitsFlag State.reset.buf.len.toNat k State.reset.hdrbits.toNat State.reset.bitcnt.toNat = true :=
    fitsFlag_iff.mpr (Nat.zero_le _)
  rw [exec_fits hk, hfits]
  rfl

theorem groupSize_of_mem : ∀ k ∈ [1, 2, 3, 4], 1 ≤ k ∧ k ≤ 4 := by decide

/-- Settles O17: every operand is 0 and every region empty, so each operand check passes but that of the modulus. -/
theorem commandsFromTheResetState : Obligations.CommandsFromTheResetState := by
  have hdat : Claims.insideMemory State.reset.dat := Nat.zero_le _
  refine ⟨?_, exec_srst _, fun k hk => exec_fits_reset (groupSize_of_mem k hk), ?_⟩
  · simp only [List.forall_mem_cons]
    exact ⟨exec_nop _, exec_clrerr _, exec_ptest (by decide), exec_ldint hdat (by decide),
      exec_stint hdat (by decide) (by decide), exec_pack_reset (by decide), exec_pack_reset (by decide),
      exec_pack_reset (by decide), exec_pack_reset (by decide), exec_unpack_reset (by decide), exec_unpack_reset (by decide),
      exec_unpack_reset (by decide), exec_unpack_reset (by decide), nofun⟩
  · simp only [List.forall_mem_cons]
    exact ⟨exec_modexp_zeroModulus rfl, exec_encrypt_zeroModulus rfl, exec_decrypt_zeroModulus rfl, nofun⟩

end Sys2Proof.Machine
end

section
/-! Reading an instruction back from its command word (spec/30_encoding.md R80 to R85, O1). -/

namespace Sys2Proof

/-- A command word can carry exactly the instructions whose immediate is a byte; in format Z it is 0. -/
theorem Instr.wf_iff_imm8_lt {i : Instr} : i.wf = true ↔ i.imm8 < 256 := by
  cases i <;> simp [Instr.wf, Instr.imm8, immFits]

/-- Settles O1: neither field of the word overflows, so the decoder reads the instruction's own opcode and immediate. -/
theorem decodeOfEncodeIsTheInstruction : Obligations.DecodeOfEncodeIsTheInstruction := by
  intro i hwf
  calc decode (encode i)
    _ = decodeOpcode i.opcode i.imm8 := decode_fields _ _ i.opcode_lt (Instr.wf_iff_imm8_lt.mp hwf)
    _ = .instr i := (decodeOpcode_instr _ _ i).mpr ⟨rfl, rfl⟩

end Sys2Proof
end
